-- ==== Sys2Proof/Word.lean ====
section
/-! DEFINITION. The machine's plain values: a 32-bit register or command word, a byte, and the ordered pair of bytes that
is a checksum (spec 00_scope.md R8: everything is unsigned; 10_state.md R30: the checksum is a pair, never an integer). -/

namespace Sys2Proof

/-- A register's value, a register number, or a command word: 32 bits (00_scope.md R7, REG_W and CMD_W). -/
abbrev Word := BitVec 32

/-- One byte of a frame, of a buffer or of a header register (00_scope.md R8, u8). -/
abbrev Byte := BitVec 8

/-- A checksum: the byte at the lower frame offset first (10_state.md R30, 20_memory.md R53). -/
abbrev BytePair := Byte × Byte

end Sys2Proof
end

