-- ==== Sys2Proof/Machine/Operands.lean ====
section
/-! DEFINITION. Operand assembly from a command word (30_encoding.md R70, R71) and the low fields of a written register
word (10_state.md R22, R25, R29, R30). -/

namespace Sys2Proof.Machine

/-- `op = w[31:28]` (R70). -/
def opField (w : Word) : BitVec 4 := w.extractLsb' 28 4

/-- `b = w[0]` (R71). -/
def bitOperand (w : Word) : Bool := w.getLsbD 0

/-- `dst = w[27:20]` (R71). -/
def dstOperand (w : Word) : Byte := w.extractLsb' 20 8

/-- `reg = w[19:12]` (R71). -/
def regOperand (w : Word) : Byte := w.extractLsb' 12 8

/-- `rdlen = w[11:0]` (R71). -/
def rdlenOperand (w : Word) : BitVec 12 := w.extractLsb' 0 12

/-- `rdlen[7:0]`, the byte BUILD_READ stores (44_builder.md R160). -/
def rdlenByte (rdlen : BitVec 12) : Byte := rdlen.extractLsb' 0 8

/-- Bits [7:0] of a written word, what a header register stores (10_state.md R29). -/
def lowByte (w : Word) : Byte := w.extractLsb' 0 8

/-- Bits [15:0] of a written word, what RX_LEN stores (10_state.md R25). -/
def lowHalf (w : Word) : BitVec 16 := w.extractLsb' 0 16

/-- The two bytes of a written word that MSG_CKS stores: CKS0 is [7:0], CKS1 is [15:8] (10_state.md R30). -/
def lowPair (w : Word) : BytePair := (w.extractLsb' 0 8, w.extractLsb' 8 8)

end Sys2Proof.Machine
end

