-- ==== Sys2Proof/Syntax.lean ====
section
/-! DEFINITION. The commands (one constructor per row of spec/opcode_table.json), the host's transactions, the names of the
registers, ports and buffers, the structured message, and the lines of the script form the spec fixes for its examples. -/

namespace Sys2Proof

/-- The two write ports that commands arrive at (30_encoding.md R72). -/
inductive Port where
  /-- Register 0x00, CODEC_CMD. -/
  | codec
  /-- Register 0x10, BSD_CMD. -/
  | bsd
deriving DecidableEq, Repr

/-- The three byte buffers (20_memory.md R50). The fourth space, REG, is reached by register number. -/
inductive Space where
  | rxbuf
  | txbuf
  | payload
deriving DecidableEq, Repr

/-- The commands of 30_encoding.md R73, in the table's order. Operand widths are those of R71, so every term of this type
is a command with legal operands. -/
inductive Instr where
  /-- FIND_HEADER, 41_frame_sync.md R110. -/
  | findHeader
  /-- CK_COMPUTE, 40_checksum.md R102. -/
  | ckCompute
  /-- PARSE, 42_codec_parse.md R120. -/
  | parse
  /-- SERLEN, 43_codec_serialize.md R140. -/
  | serlen
  /-- SET_CHECKSUM, 43_codec_serialize.md R142. -/
  | setChecksum
  /-- SERIALIZE, 43_codec_serialize.md R144. -/
  | serialize
  /-- BUILD_READ dst, reg, rdlen, 44_builder.md R160. -/
  | buildRead (dst reg : Byte) (rdlen : BitVec 12)
  /-- RELEASE, 42_codec_parse.md R130. -/
  | release
  /-- ADD_BIT b, 45_bitstream.md R170. -/
  | addBit (b : Bool)
  /-- CHECK_PARITY b, 45_bitstream.md R174. -/
  | checkParity (b : Bool)
  /-- BSD_RESET, 45_bitstream.md R178. -/
  | bsdReset
deriving DecidableEq, Repr

/-- The named registers of 10_state.md R22. Numbers 0x07, 0x0F and those above 0x12 name none. -/
inductive Reg where
  | codecCmd
  | codecStatus
  | rxLen
  | offset
  | serLen
  | ckOut
  | txLen
  | msgLen
  | msgSrc
  | msgDst
  | msgCmd
  | msgArg
  | msgCks
  | msgCtrl
  | bsdCmd
  | bsdStatus
  | bsdState
deriving DecidableEq, Repr

/-- What the host can do to the block, and nothing else can be done to it (20_memory.md R56). -/
inductive Transaction where
  /-- RegRead(n), n any 32-bit register number. -/
  | regRead (n : Word)
  /-- RegWrite(n, w). -/
  | regWrite (n w : Word)
  /-- BufRead(S, i). -/
  | bufRead (sp : Space) (i : Nat)
  /-- BufWrite(S, i, b). -/
  | bufWrite (sp : Space) (i : Nat) (b : Byte)
  /-- Reset: the hardware reset input, and power-on. -/
  | reset
deriving DecidableEq, Repr

/-- What a read transaction returns: a register's value or a buffer's byte (20_memory.md R56). -/
inductive ReadValue where
  | word (w : Word)
  | byte (b : Byte)
deriving DecidableEq, Repr

/-- The structured message `M` of 10_state.md R32: five header fields, the payload, the stored checksum. -/
structure Message where
  len : Byte
  src : Byte
  dst : Byte
  cmd : Byte
  arg : Byte
  payload : List Byte
  cks : BytePair
deriving DecidableEq, Repr

/-- One line of the script form of 30_encoding.md R90, or one pseudo-operation of R91. Operands are the numbers a script
writes, of any size; `ScriptLine.wellFormed` says which of them the rules allow. -/
inductive ScriptLine where
  | findHeader
  | ckCompute
  | parse
  | serlen
  | setChecksum
  | serialize
  | release
  | buildRead (dst reg rdlen : Nat)
  | addBit (b : Nat)
  | checkParity (b : Nat)
  | bsdReset
  | wr (r : Reg) (v : Nat)
  | rd (r : Reg)
  | rxWrite (i b : Nat)
  | plWrite (i b : Nat)
  | rxRead (i : Nat)
  | txRead (i : Nat)
  | plRead (i : Nat)
  | cmdc (w : Nat)
  | cmdb (w : Nat)
  | reset
  | loadrx (bs : List Nat)
  | appendrx (bs : List Nat)
  | loadpl (bs : List Nat)
  | tx2rx
  | feed (bs : List Nat)
deriving DecidableEq, Repr

end Sys2Proof
end

