-- ==== Sys2Proof/Config.lean ====
section
/-! DEFINITION. What is fixed for a run: the constants of 00_scope.md R6, the sizes of R7, the four OPEN parameters of R7
(opaque: nothing can be proved of their values), and the free value of a buffer byte that nothing has written. -/

namespace Sys2Proof.Config

/-! ## OPEN parameters (00_scope.md R7) -/

/-- CK, the checksum function (40_checksum.md R100; log entry 3). Total and deterministic by being a function; nothing else
is known of it. -/
opaque ck : List Byte → BytePair

/-- CMD_READ, the fixed "register read" opcode (92_eei_decisions.md D9; log entry 4). -/
opaque cmdRead : Byte

/-- OWN_ADDR, this node's own bus address (92_eei_decisions.md D10; log entry 4). -/
opaque ownAddr : Byte

/-- RX_CAP less 9, any of the 65527 values that the constraint `9 <= RX_CAP <= 65535` leaves (log entry 5). -/
opaque rxCapAboveNine : Fin 65527

/-- RX_CAP, the capacity of RXBUF in bytes (92_eei_decisions.md D6; log entry 5). -/
def rxCap : Nat := 9 + rxCapAboveNine.val

/-! ## The free value (93_implementation_defined.md U3; log entry 6) -/

/-- The byte that index `i` of buffer `sp` holds from the reset numbered `draw` on, until a transaction writes it. -/
opaque powerOnByte (draw : Nat) (sp : Space) (i : Nat) : Byte

/-! ## Constants fixed by the document (00_scope.md R6) -/

/-- SYNC0, the first byte of the sync marker. -/
def sync0 : Byte := 0x5A#8
/-- SYNC1, the second byte of the sync marker. -/
def sync1 : Byte := 0xA5#8
/-- HDR_FIELDS, the header fields after the marker, one byte each. -/
def hdrFields : Nat := 5
/-- CK_SIZE, the bytes of a checksum. -/
def ckSize : Nat := 2
/-- MIN_FRAME, the length of a frame with an empty payload. -/
def minFrame : Nat := 9

/-! ## Sizes this spec decided (00_scope.md R7) -/

/-- TX_CAP, the bytes of TXBUF. -/
def txCap : Nat := 264
/-- PAYLOAD_CAP, the bytes of PAYLOAD. -/
def payloadCap : Nat := 255
/-- NOT_FOUND, the sentinel of OFFSET. -/
def notFound : BitVec 16 := 0xFFFF#16
/-- The greatest read length that fits the one-byte payload encoding (44_builder.md R161). -/
def maxReadLen : Nat := 255

/-! ## Values the block carries and never checks (30_encoding.md R83, R84; 44_builder.md R164) -/

/-- ADDR_ESC, the motor controller. -/
def addrEsc : Byte := 0x20#8
/-- ADDR_BLE, the BLE module. -/
def addrBle : Byte := 0x21#8
/-- ADDR_BMS, the battery management system. -/
def addrBms : Byte := 0x22#8
/-- ADDR_APP, the App. -/
def addrApp : Byte := 0x3E#8

/-- The known bus addresses (30_encoding.md R83). -/
def knownAddresses : List Byte := [addrEsc, addrBle, addrBms, addrApp]

/-- The known bus registers of 30_encoding.md R84, first and last id of each kind. -/
def knownBusRegisters : List (Byte × Byte × String) :=
  [(0x17#8, 0x17#8, "firmware version"), (0x18#8, 0x18#8, "factory capacity"), (0x19#8, 0x19#8, "actual capacity"),
   (0x1B#8, 0x1B#8, "charge-cycle counter (first of two)"), (0x1C#8, 0x1C#8, "charge-cycle counter (second of two)"),
   (0x32#8, 0x32#8, "capacity (pack capacity)"), (0x33#8, 0x33#8, "current"), (0x34#8, 0x34#8, "voltage"),
   (0x35#8, 0x35#8, "temperature"), (0x3B#8, 0x3B#8, "health"), (0x40#8, 0x49#8, "per-cell voltages")]

/-- The number of bytes of a buffer (20_memory.md R50). -/
def capacity : Space → Nat
  | .rxbuf => rxCap
  | .txbuf => txCap
  | .payload => payloadCap

end Sys2Proof.Config
end

