-- ==== Sys2Proof/WellFormed.lean ====
section
/-! DEFINITION. Which terms of the syntax the rules allow: transactions by 20_memory.md R56, script lines by 30_encoding.md
R90 and R91. A command needs no check of its own: its operands have exactly the widths of R71. -/

namespace Sys2Proof

/-- A command is well-formed whatever its operands: R71 delivers a bit, two bytes and a 12-bit number, and those are the
operands' types. (Whether BUILD_READ succeeds with its `rdlen` is 44_builder.md R161, not form.) -/
def Instr.wellFormed : Instr → Bool
  | .findHeader => true
  | .ckCompute => true
  | .parse => true
  | .serlen => true
  | .setChecksum => true
  | .serialize => true
  | .buildRead _ _ _ => true
  | .release => true
  | .addBit _ => true
  | .checkParity _ => true
  | .bsdReset => true

/-- May the host write this buffer (20_memory.md R56, 10_state.md R37)? TXBUF is read-only to it. -/
def Space.hostWritable : Space → Bool
  | .rxbuf => true
  | .txbuf => false
  | .payload => true

/-- The column "legal when" of 20_memory.md R56. -/
def Transaction.wellFormed : Transaction → Bool
  | .regRead _ => true
  | .regWrite _ _ => true
  | .bufRead sp i => decide (i < Config.capacity sp)
  | .bufWrite sp i _ => sp.hostWritable && decide (i < Config.capacity sp)
  | .reset => true

/-- Is the number a byte? -/
def isByteNumber (b : Nat) : Bool := decide (b < 256)

/-- The operand ranges of 30_encoding.md R90 and R91 that can be told from the line alone. -/
def ScriptLine.wellFormed : ScriptLine → Bool
  | .findHeader => true
  | .ckCompute => true
  | .parse => true
  | .serlen => true
  | .setChecksum => true
  | .serialize => true
  | .release => true
  | .buildRead dst reg rdlen => isByteNumber dst && isByteNumber reg && decide (rdlen < 4096)
  | .addBit b => decide (b < 2)
  | .checkParity b => decide (b < 2)
  | .bsdReset => true
  | .wr _ v => decide (v < 2 ^ 32)
  | .rd _ => true
  | .rxWrite i b => decide (i < Config.capacity .rxbuf) && isByteNumber b
  | .plWrite i b => decide (i < Config.capacity .payload) && isByteNumber b
  | .rxRead i => decide (i < Config.capacity .rxbuf)
  | .txRead i => decide (i < Config.capacity .txbuf)
  | .plRead i => decide (i < Config.capacity .payload)
  | .cmdc w => decide (w < 2 ^ 32)
  | .cmdb w => decide (w < 2 ^ 32)
  | .reset => true
  | .loadrx bs => bs.all isByteNumber && decide (bs.length ≤ Config.capacity .rxbuf)
  | .appendrx bs => bs.all isByteNumber && decide (bs.length ≤ Config.capacity .rxbuf)
  | .loadpl bs => bs.all isByteNumber && decide (bs.length ≤ Config.capacity .payload)
  | .tx2rx => true
  | .feed bs => bs.all (fun b => decide (b < 2))

end Sys2Proof
end

