-- ==== Sys2Proof/Decode.lean ====
section
/-! DEFINITION. From numbers to names and back: the opcode map of 30_encoding.md R73 as a table of masks and matches, the
decoder of R72 (total; an illegal word is named by the clause of R75 it falls under), the encoder, and the register
numbers of 10_state.md R22. -/

namespace Sys2Proof

/-- The clause of 30_encoding.md R75 that makes a word illegal on a port. -/
inductive IllegalWord where
  /-- Its op is 0x0, 0x9, 0xD, 0xE or 0xF. -/
  | reservedOpcode
  /-- Its op belongs to the other port. -/
  | otherPort
  /-- Its op is legal for the port and a must-be-zero bit of its format is 1. -/
  | mustBeZero
deriving DecidableEq, Repr

/-- One row of the opcode map. -/
structure Row where
  port : Port
  matchBits : Word
  mask : Word
  build : Word → Instr

/-- The opcode map of 30_encoding.md R73, in its order; `build` assembles the operands by R71. -/
def opcodeMap : List Row :=
  [⟨.codec, 0x10000000#32, 0xFFFFFFFF#32, fun _ => .findHeader⟩,
   ⟨.codec, 0x20000000#32, 0xFFFFFFFF#32, fun _ => .ckCompute⟩,
   ⟨.codec, 0x30000000#32, 0xFFFFFFFF#32, fun _ => .parse⟩,
   ⟨.codec, 0x40000000#32, 0xFFFFFFFF#32, fun _ => .serlen⟩,
   ⟨.codec, 0x50000000#32, 0xFFFFFFFF#32, fun _ => .setChecksum⟩,
   ⟨.codec, 0x60000000#32, 0xFFFFFFFF#32, fun _ => .serialize⟩,
   ⟨.codec, 0x70000000#32, 0xF0000000#32, fun w =>
      .buildRead (Machine.dstOperand w) (Machine.regOperand w) (Machine.rdlenOperand w)⟩,
   ⟨.codec, 0x80000000#32, 0xFFFFFFFF#32, fun _ => .release⟩,
   ⟨.bsd, 0xA0000000#32, 0xFFFFFFFE#32, fun w => .addBit (Machine.bitOperand w)⟩,
   ⟨.bsd, 0xB0000000#32, 0xFFFFFFFE#32, fun w => .checkParity (Machine.bitOperand w)⟩,
   ⟨.bsd, 0xC0000000#32, 0xFFFFFFFF#32, fun _ => .bsdReset⟩]

/-- Does the row's pattern match the word written to the port (R72)? -/
def rowMatches (p : Port) (w : Word) (r : Row) : Bool :=
  decide (r.port = p) && decide (w &&& r.mask = r.matchBits)

/-- The port an opcode belongs to; none where it is reserved (R73, R75). -/
def opcodePort (op : BitVec 4) : Option Port :=
  if 0x1#4 ≤ op ∧ op ≤ 0x8#4 then some .codec
  else if 0xA#4 ≤ op ∧ op ≤ 0xC#4 then some .bsd
  else none

/-- Why a word that no row of the port matches is illegal (R75). -/
def illegalReason (p : Port) (w : Word) : IllegalWord :=
  match opcodePort (Machine.opField w) with
  | none => .reservedOpcode
  | some q => if q = p then .mustBeZero else .otherPort

/-- Decoding, a total function of the port and the word (R72). -/
def decode (p : Port) (w : Word) : Except IllegalWord Instr :=
  match opcodeMap.find? (rowMatches p w) with
  | some r => .ok (r.build w)
  | none => .error (illegalReason p w)

/-- The port a command is written to (R73). -/
def Instr.port : Instr → Port
  | .findHeader => .codec
  | .ckCompute => .codec
  | .parse => .codec
  | .serlen => .codec
  | .setChecksum => .codec
  | .serialize => .codec
  | .buildRead _ _ _ => .codec
  | .release => .codec
  | .addBit _ => .bsd
  | .checkParity _ => .bsd
  | .bsdReset => .bsd

/-- The opcode of a command, `w[31:28]` of its word (R73). -/
def Instr.opcode : Instr → BitVec 4
  | .findHeader => 0x1#4
  | .ckCompute => 0x2#4
  | .parse => 0x3#4
  | .serlen => 0x4#4
  | .setChecksum => 0x5#4
  | .serialize => 0x6#4
  | .buildRead _ _ _ => 0x7#4
  | .release => 0x8#4
  | .addBit _ => 0xA#4
  | .checkParity _ => 0xB#4
  | .bsdReset => 0xC#4

/-- Bits [27:0] of a command's word: zero but for the operand fields of its format (R70). -/
def Instr.operandBits : Instr → BitVec 28
  | .findHeader => 0#28
  | .ckCompute => 0#28
  | .parse => 0#28
  | .serlen => 0#28
  | .setChecksum => 0#28
  | .serialize => 0#28
  | .buildRead dst reg rdlen => dst ++ reg ++ rdlen
  | .release => 0#28
  | .addBit b => 0#27 ++ BitVec.ofBool b
  | .checkParity b => 0#27 ++ BitVec.ofBool b
  | .bsdReset => 0#28

/-- The word of a command, by the formats of R70. -/
def encode (i : Instr) : Word := i.opcode ++ i.operandBits

/-- The port a word is meant for: BSD_CMD where that port knows it, else CODEC_CMD. The opcodes of the two ports are
disjoint, so a legal word has one port (R73; log entry 11). -/
def portOfWord (w : Word) : Port :=
  match decode .bsd w with
  | .ok _ => .bsd
  | .error _ => .codec

/-- The word an opcode-table instruction of `nbits` bits stands for: a command is one word of 32 bits, so there is nothing
above them to keep. -/
def tableWord (nbits w : Nat) : Word := BitVec.ofNat 32 (w % 2 ^ nbits)

/-- The instruction the decoder reads from an opcode-table word; none where it is illegal on both ports or does not fit one
command word (R70). -/
def decodeTableWord (nbits w : Nat) : Option Instr :=
  if w % 2 ^ nbits < 2 ^ 32 then
    match decode (portOfWord (tableWord nbits w)) (tableWord nbits w) with
    | .ok i => some i
    | .error _ => none
  else none

/-- The number of a register (10_state.md R22). -/
def Reg.number : Reg → Word
  | .codecCmd => 0x00#32
  | .codecStatus => 0x01#32
  | .rxLen => 0x02#32
  | .offset => 0x03#32
  | .serLen => 0x04#32
  | .ckOut => 0x05#32
  | .txLen => 0x06#32
  | .msgLen => 0x08#32
  | .msgSrc => 0x09#32
  | .msgDst => 0x0A#32
  | .msgCmd => 0x0B#32
  | .msgArg => 0x0C#32
  | .msgCks => 0x0D#32
  | .msgCtrl => 0x0E#32
  | .bsdCmd => 0x10#32
  | .bsdStatus => 0x11#32
  | .bsdState => 0x12#32

/-- The register a number selects; none for the reserved numbers 0x07, 0x0F and those above 0x12 (10_state.md R22). -/
def regOfNumber (n : Word) : Option Reg :=
  match n.toNat with
  | 0x00 => some .codecCmd
  | 0x01 => some .codecStatus
  | 0x02 => some .rxLen
  | 0x03 => some .offset
  | 0x04 => some .serLen
  | 0x05 => some .ckOut
  | 0x06 => some .txLen
  | 0x08 => some .msgLen
  | 0x09 => some .msgSrc
  | 0x0A => some .msgDst
  | 0x0B => some .msgCmd
  | 0x0C => some .msgArg
  | 0x0D => some .msgCks
  | 0x0E => some .msgCtrl
  | 0x10 => some .bsdCmd
  | 0x11 => some .bsdStatus
  | 0x12 => some .bsdState
  | _ => none

/-- The register that is a port's write port (10_state.md R22). -/
def Port.register : Port → Reg
  | .codec => .codecCmd
  | .bsd => .bsdCmd

end Sys2Proof
end

