-- ==== Sys2Proof/Machine/State.lean ====
section
/-! DEFINITION. The state as plain data: every register, flag and buffer of 10_state.md R20, the three fields of the model's
own (the host's transactions still to come, the values reads have returned, and the count of resets), the reasons a step
can stop, and the state right after reset (10_state.md R41). -/

namespace Sys2Proof.Machine

/-- A byte buffer: the bytes written since the last reset, by rising index (log entry 7). An index that is not listed holds
its power-on byte. -/
abbrev Memory := List Host.Cell

/-- CODEC_STATUS.CODE: exactly the codes of 60_exceptions.md R191. -/
inductive CodecCode where
  | ok
  | notFound
  | noHeader
  | truncated
  | checksumMismatch
  | noResource
  | invalidParam
  | notOwned
  | illegalCmd
deriving DecidableEq, Repr

/-- BSD_STATUS.CODE: exactly the codes of 60_exceptions.md R192. -/
inductive BsdCode where
  | ok
  | accepted
  | complete
  | alreadyComplete
  | matched
  | mismatched
  | notReady
  | illegalCmd
deriving DecidableEq, Repr

/-- The machine's state. Every field but the last three is the spec's (10_state.md R20). -/
structure State where
  /-- CODEC_STATUS.CODE (R24). -/
  codecCode : CodecCode
  /-- CODEC_STATUS.OP (R24). -/
  codecOp : BitVec 4
  /-- RX_LEN (R25). -/
  rxLen : BitVec 16
  /-- OFFSET (R26). -/
  offset : BitVec 16
  /-- SER_LEN (R27). -/
  serLen : BitVec 9
  /-- CK_OUT: (C0, C1) (R27). -/
  ckOut : BytePair
  /-- TX_LEN (R27). -/
  txLen : BitVec 9
  /-- MSG_LEN.LEN (R29). -/
  msgLen : Byte
  /-- MSG_SRC.SRC (R29). -/
  msgSrc : Byte
  /-- MSG_DST.DST (R29). -/
  msgDst : Byte
  /-- MSG_CMD.CMD (R29). -/
  msgCmd : Byte
  /-- MSG_ARG.ARG (R29). -/
  msgArg : Byte
  /-- MSG_CKS: (CKS0, CKS1) (R30). -/
  msgCks : BytePair
  /-- MSG_CTRL.OWNED (R31). -/
  owned : Bool
  /-- RXBUF (R37). -/
  rxbuf : Memory
  /-- TXBUF (R37). -/
  txbuf : Memory
  /-- PAYLOAD (R37). -/
  payload : Memory
  /-- BSD_STATUS.CODE (R34). -/
  bsdCode : BsdCode
  /-- BSD_STATUS.OP (R34). -/
  bsdOp : BitVec 4
  /-- BSD_STATE.VALUE (R35). -/
  value : Byte
  /-- BSD_STATE.BIT_INDEX, 0 to 8 (R35, R36; 93_implementation_defined.md U8). -/
  bitIndex : Fin 9
  /-- The model's own: the host's transactions still to come, in the one total order of 20_memory.md R57 (log entry 1). -/
  pending : List Transaction
  /-- The model's own: what the read transactions so far returned, oldest first (00_scope.md R12; log entry 2). -/
  returned : List ReadValue
  /-- The model's own: how many Reset transactions there have been; it numbers the draws of the power-on bytes (log entry
  6). -/
  resets : Nat
deriving DecidableEq, Repr

/-- Why the machine stops with a fault: never. The block raises no exception, takes no trap and has no error state; every
outcome of every command is a status code (60_exceptions.md R190; log entry 9), so this type has no constructor. -/
inductive Fault where
deriving DecidableEq, Repr

/-- Why a step is refused. -/
inductive Refusal where
  /-- An instruction without a meaning, by its mnemonic: raised by no arm of this model. Safe. -/
  | notModelled (mnemonic : String)
  /-- A BufRead or BufWrite at an index at or beyond the buffer's size, raised by `perform`: not a transaction of the block
  (20_memory.md R56, 92_eei_decisions.md D32). Safe: a host program that holds one has no run. -/
  | bufferIndex (sp : Space) (i : Nat)
  /-- A BufWrite to TXBUF, raised by `perform`: not a transaction of the block (20_memory.md R56). Safe, as the one above. -/
  | txbufWrite (i : Nat)
deriving DecidableEq, Repr

/-- The outcome of a meaning, a transaction or a step. -/
abbrev Result := Host.Outcome State Fault Refusal

/-- The state right after reset: the table of 10_state.md R41, nothing listed in the buffers, no transaction issued. -/
def State.reset : State where
  codecCode := .ok
  codecOp := 0#4
  rxLen := 0#16
  offset := Config.notFound
  serLen := 0#9
  ckOut := (0#8, 0#8)
  txLen := 0#9
  msgLen := 0#8
  msgSrc := 0#8
  msgDst := 0#8
  msgCmd := 0#8
  msgArg := 0#8
  msgCks := (0#8, 0#8)
  owned := false
  rxbuf := []
  txbuf := []
  payload := []
  bsdCode := .ok
  bsdOp := 0#4
  value := 0#8
  bitIndex := 0
  pending := []
  returned := []
  resets := 0

end Sys2Proof.Machine
end

