-- ==== Sys2Proof/Machine/Ops.lean ====
section
/-! DEFINITION. The shared operations: bytes of the buffers, the end of a command (the block's one analogue of taking an
exception: 60_exceptions.md R190), the marker search, and the message slot. -/

namespace Sys2Proof.Machine

/-! ## Buffers -/

/-- The byte written at an index since the last reset, if any. -/
def Memory.read? : Memory → Nat → Option Byte
  | [], _ => none
  | (k, b) :: m, a => if k = a then some b else Memory.read? m a

/-- Store one byte, keeping the indices rising (`RX[i] <- b` of 00_scope.md R10). -/
def Memory.write : Memory → Nat → Byte → Memory
  | [], a, v => [(a, v)]
  | (k, b) :: m, a, v =>
    if a < k then (a, v) :: (k, b) :: m
    else if a = k then (a, v) :: m
    else (k, b) :: Memory.write m a v

/-- Store a byte sequence from an index on. -/
def Memory.writeBytes : Memory → Nat → List Byte → Memory
  | m, _, [] => m
  | m, a, b :: bs => Memory.writeBytes (Memory.write m a b) (a + 1) bs

/-- The canonical form: indices strictly rising. An unlisted index holds no written byte, so no entry can equal what an
unlisted index holds (log entry 7). -/
def Memory.wf (m : Memory) : Bool := decide ((m.map Prod.fst).Pairwise (· < ·))

/-- The buffer of a space. -/
def State.memory (s : State) : Space → Memory
  | .rxbuf => s.rxbuf
  | .txbuf => s.txbuf
  | .payload => s.payload

/-- `S[i]`: the byte last written there since reset, else the power-on byte (10_state.md R41, 93_implementation_defined.md
U3). -/
def State.byte (s : State) (sp : Space) (i : Nat) : Byte :=
  (Memory.read? (s.memory sp) i).getD (Config.powerOnByte s.resets sp i)

/-- `S[a ..< a + n]` as a byte sequence (00_scope.md R10). -/
def State.bytes (s : State) (sp : Space) : Nat → Nat → List Byte
  | _, 0 => []
  | a, n + 1 => s.byte sp a :: State.bytes s sp (a + 1) n

/-- `S[i] <- b` (00_scope.md R10). -/
def State.writeByte (s : State) (sp : Space) (i : Nat) (b : Byte) : State :=
  match sp with
  | .rxbuf => { s with rxbuf := s.rxbuf.write i b }
  | .txbuf => { s with txbuf := s.txbuf.write i b }
  | .payload => { s with payload := s.payload.write i b }

/-! ## The end of a command -/

/-- `done CODE` and `fail CODE` of a codec command (00_scope.md R10): OP and CODE are written together (10_state.md R24). -/
def State.codecDone (s : State) (op : BitVec 4) (code : CodecCode) : State :=
  { s with codecOp := op, codecCode := code }

/-- `done CODE` and `fail CODE` of a decoder command (10_state.md R34). -/
def State.bsdDone (s : State) (op : BitVec 4) (code : BsdCode) : State :=
  { s with bsdOp := op, bsdCode := code }

/-- An illegal word written to a port: its status register and nothing else (30_encoding.md R75). -/
def State.illegal (s : State) (p : Port) (w : Word) : State :=
  match p with
  | .codec => s.codecDone (opField w) .illegalCmd
  | .bsd => s.bsdDone (opField w) .illegalCmd

/-- The Reset transaction (70_reset_and_hazards.md R220): every register and buffer as at reset, with a new draw of the
power-on bytes; the host's own transactions and what it has read are not the block's to clear. -/
def State.hardReset (s : State) : State :=
  { State.reset with pending := s.pending, returned := s.returned, resets := s.resets + 1 }

/-! ## The marker search (41_frame_sync.md R111) -/

/-- The pair 0x5A, 0xA5 stands at indices `i` and `i + 1` of RXBUF. -/
def State.markerAt (s : State) (i : Nat) : Bool :=
  decide (s.byte .rxbuf i = Config.sync0) && decide (s.byte .rxbuf (i + 1) = Config.sync1)

/-- `find(n)`: the least `i` with `i + 1 < n` and the marker at `i`. -/
def State.findMarker (s : State) (n : Nat) : Option Nat :=
  (List.range (n - 1)).find? (fun i => s.markerAt i)

/-! ## Messages and frames -/

/-- The header fields as a byte sequence (30_encoding.md R80). -/
def headerBytes (m : Message) : List Byte := [m.len, m.src, m.dst, m.cmd, m.arg]

/-- `span(M)`, what a message's checksum is computed over (10_state.md R32). -/
def messageSpan (m : Message) : List Byte := headerBytes m ++ m.payload

/-- The message's stored checksum is that of its span (10_state.md R32). -/
def MessageValid (m : Message) : Prop := m.cks = Config.ck (messageSpan m)

/-- The frame of a message, by the wire table of 30_encoding.md R80. -/
def frameBytes (m : Message) : List Byte :=
  [Config.sync0, Config.sync1] ++ headerBytes m ++ m.payload ++ [m.cks.1, m.cks.2]

/-- The message the slot holds (10_state.md R32). -/
def State.message (s : State) : Message where
  len := s.msgLen
  src := s.msgSrc
  dst := s.msgDst
  cmd := s.msgCmd
  arg := s.msgArg
  payload := s.bytes .payload 0 s.msgLen.toNat
  cks := s.msgCks

/-- Put a message into the slot and claim it: the writes of a successful PARSE (42_codec_parse.md R126) and BUILD_READ
(44_builder.md R160). PAYLOAD bytes beyond the message's keep their values. -/
def State.storeMessage (s : State) (m : Message) : State :=
  { s with
    msgLen := m.len, msgSrc := m.src, msgDst := m.dst, msgCmd := m.cmd, msgArg := m.arg,
    payload := s.payload.writeBytes 0 m.payload, msgCks := m.cks, owned := true }

end Sys2Proof.Machine
end

