-- ==== Sys2Proof/Machine/Flags.lean ====
section
/-! DEFINITION. The flags and status fields: the numbers of the status codes (60_exceptions.md R191, R192), READY
(10_state.md R35), the parity of a byte (45_bitstream.md R176), and how fields are packed into a 32-bit register value
(10_state.md R22). -/

namespace Sys2Proof.Machine

/-- The code numbers of 60_exceptions.md R191. -/
def codecCodeNumber : CodecCode → BitVec 4
  | .ok => 0#4
  | .notFound => 1#4
  | .noHeader => 2#4
  | .truncated => 3#4
  | .checksumMismatch => 4#4
  | .noResource => 5#4
  | .invalidParam => 6#4
  | .notOwned => 7#4
  | .illegalCmd => 15#4

/-- The code numbers of 60_exceptions.md R192. -/
def bsdCodeNumber : BsdCode → BitVec 4
  | .ok => 0#4
  | .accepted => 1#4
  | .complete => 2#4
  | .alreadyComplete => 3#4
  | .matched => 4#4
  | .mismatched => 5#4
  | .notReady => 6#4
  | .illegalCmd => 15#4

/-- READY: BIT_INDEX is 8 (10_state.md R35). It is computed, not stored. -/
def State.ready (s : State) : Bool := decide (s.bitIndex.val = 8)

/-- `par(v)`: the exclusive-or of the eight bits (45_bitstream.md R176). -/
def parity (v : Byte) : Bool :=
  v.getLsbD 0 ^^ v.getLsbD 1 ^^ v.getLsbD 2 ^^ v.getLsbD 3 ^^ v.getLsbD 4 ^^ v.getLsbD 5 ^^ v.getLsbD 6 ^^ v.getLsbD 7

/-- `v[k] <- b`, the other bits unchanged (45_bitstream.md R170). -/
def setBit (v : Byte) (k : Nat) (b : Bool) : Byte :=
  if b then v ||| (1#8 <<< k) else v &&& ~~~(1#8 <<< k)

/-- `k + 1` for an accumulating index; 8 stays 8 (45_bitstream.md R170, R172). -/
def nextIndex (k : Fin 9) : Fin 9 :=
  if h : k.val < 8 then ⟨k.val + 1, Nat.succ_lt_succ h⟩ else k

/-- A status register's value: CODE [3:0], OP [7:4], the rest 0 (10_state.md R22, R24, R34). -/
def statusValue (op code : BitVec 4) : Word := (op ++ code).setWidth 32

/-- A pair register's value: the first byte in [7:0], the second in [15:8] (20_memory.md R53). -/
def pairValue (p : BytePair) : Word := (p.2 ++ p.1).setWidth 32

/-- BSD_STATE's value: VALUE [7:0], BIT_INDEX [11:8], READY [12] (10_state.md R35). -/
def bsdStateValue (s : State) : Word :=
  (BitVec.ofBool s.ready ++ BitVec.ofNat 4 s.bitIndex.val ++ s.value).setWidth 32

end Sys2Proof.Machine
end

