-- ==== Sys2Proof/Machine/BitStream.lean ====
section
/-! DEFINITION. Bit-Stream Decoder: ADD_BIT, CHECK_PARITY and BSD_RESET (45_bitstream.md). -/

namespace Sys2Proof.Machine

/-- ADD_BIT (45_bitstream.md R170): the least significant bit comes first; completion is signalled on the eighth bit. -/
def execAddBit (b : Bool) (s : State) : Result :=
  if s.ready then .next (s.bsdDone 0xA#4 .alreadyComplete)
  else
    let t : State := { s with value := setBit s.value s.bitIndex.val b, bitIndex := nextIndex s.bitIndex }
    if t.ready then .next (t.bsdDone 0xA#4 .complete) else .next (t.bsdDone 0xA#4 .accepted)

/-- CHECK_PARITY (45_bitstream.md R174); before Ready it compares nothing (R175). -/
def execCheckParity (b : Bool) (s : State) : Result :=
  if ¬ s.ready then .next (s.bsdDone 0xB#4 .notReady)
  else if b = parity s.value then .next (s.bsdDone 0xB#4 .matched)
  else .next (s.bsdDone 0xB#4 .mismatched)

/-- BSD_RESET (45_bitstream.md R178). -/
def execBsdReset (s : State) : Result :=
  .next ({ s with value := 0#8, bitIndex := 0 }.bsdDone 0xC#4 .ok)

end Sys2Proof.Machine
end

