-- ==== Sys2Proof/Machine/Builder.lean ====
section
/-! DEFINITION. Register-Read Message Builder: BUILD_READ (44_builder.md). -/

namespace Sys2Proof.Machine

/-- The request "read register N bytes from device D" before its checksum is set (30_encoding.md R85). -/
def readRequest (dst reg : Byte) (rdlen : BitVec 12) : Message where
  len := 1#8
  src := Config.ownAddr
  dst := dst
  cmd := Config.cmdRead
  arg := reg
  payload := [rdlenByte rdlen]
  cks := (0#8, 0#8)

/-- The request with its checksum set, as BUILD_READ leaves it in the slot (44_builder.md R160). -/
def builtRequest (dst reg : Byte) (rdlen : BitVec 12) : Message :=
  { readRequest dst reg rdlen with cks := Config.ck (messageSpan (readRequest dst reg rdlen)) }

/-- BUILD_READ (44_builder.md R160): the range test (R161) before the slot test (R162). -/
def execBuildRead (dst reg : Byte) (rdlen : BitVec 12) (s : State) : Result :=
  if Config.maxReadLen < rdlen.toNat then .next (s.codecDone 0x7#4 .invalidParam)
  else if s.owned then .next (s.codecDone 0x7#4 .noResource)
  else .next ((s.storeMessage (builtRequest dst reg rdlen)).codecDone 0x7#4 .ok)

end Sys2Proof.Machine
end

