-- ==== Sys2Proof/Machine/Checksum.lean ====
section
/-! DEFINITION. Checksum Utility: CK_COMPUTE (40_checksum.md). -/

namespace Sys2Proof.Machine

/-- CK_COMPUTE (40_checksum.md R102): CK over the whole valid part of RXBUF. -/
def execCkCompute (s : State) : Result :=
  .next ({ s with ckOut := Config.ck (s.bytes .rxbuf 0 s.rxLen.toNat) }.codecDone 0x2#4 .ok)

end Sys2Proof.Machine
end

