-- ==== Sys2Proof/Machine/FrameSync.lean ====
section
/-! DEFINITION. Frame Synchronizer: FIND_HEADER (41_frame_sync.md). -/

namespace Sys2Proof.Machine

/-- FIND_HEADER (41_frame_sync.md R110). -/
def execFindHeader (s : State) : Result :=
  match s.findMarker s.rxLen.toNat with
  | some i => .next ({ s with offset := BitVec.ofNat 16 i }.codecDone 0x1#4 .ok)
  | none => .next ({ s with offset := Config.notFound }.codecDone 0x1#4 .notFound)

end Sys2Proof.Machine
end

