-- ==== Sys2Proof/Machine/Parse.lean ====
section
/-! DEFINITION. Message Codec, parse side: PARSE and RELEASE (42_codec_parse.md). -/

namespace Sys2Proof.Machine

/-- The length byte of the frame whose marker is at `off` (42_codec_parse.md R122). -/
def State.frameLen (s : State) (off : Nat) : Byte := s.byte .rxbuf (off + 2)

/-- The checksum span of that frame, `RX[off + 2 ..< off + 7 + L]` (30_encoding.md R82, 42_codec_parse.md R124). -/
def State.frameSpan (s : State) (off : Nat) : List Byte :=
  s.bytes .rxbuf (off + 2) (Config.hdrFields + (s.frameLen off).toNat)

/-- The frame at `off` read as a message (30_encoding.md R80, 42_codec_parse.md R126). -/
def State.frameMessage (s : State) (off : Nat) : Message where
  len := s.frameLen off
  src := s.byte .rxbuf (off + 3)
  dst := s.byte .rxbuf (off + 4)
  cmd := s.byte .rxbuf (off + 5)
  arg := s.byte .rxbuf (off + 6)
  payload := s.bytes .rxbuf (off + 7) (s.frameLen off).toNat
  cks := (s.byte .rxbuf (off + 7 + (s.frameLen off).toNat), s.byte .rxbuf (off + 8 + (s.frameLen off).toNat))

/-- PARSE (42_codec_parse.md R120): the tests in the order of 60_exceptions.md R194, the slot claimed only when all hold
(R125). -/
def execParse (s : State) : Result :=
  match s.findMarker s.rxLen.toNat with
  | none => .next ({ s with offset := Config.notFound }.codecDone 0x3#4 .noHeader)
  | some off =>
    let found : State := { s with offset := BitVec.ofNat 16 off }
    let avail := s.rxLen.toNat - off
    if avail < Config.minFrame then .next (found.codecDone 0x3#4 .truncated)
    else if avail < Config.minFrame + (s.frameLen off).toNat then .next (found.codecDone 0x3#4 .truncated)
    else if (s.frameMessage off).cks ≠ Config.ck (s.frameSpan off) then .next (found.codecDone 0x3#4 .checksumMismatch)
    else if s.owned then .next (found.codecDone 0x3#4 .noResource)
    else .next ((found.storeMessage (s.frameMessage off)).codecDone 0x3#4 .ok)

/-- RELEASE (42_codec_parse.md R130). -/
def execRelease (s : State) : Result :=
  if s.owned then .next ({ s with owned := false }.codecDone 0x8#4 .ok)
  else .next (s.codecDone 0x8#4 .notOwned)

end Sys2Proof.Machine
end

