-- ==== Sys2Proof/Machine/Serialize.lean ====
section
/-! DEFINITION. Message Codec, serialize side: SERLEN, SET_CHECKSUM and SERIALIZE (43_codec_serialize.md). None of them
looks at OWNED (R146). -/

namespace Sys2Proof.Machine

/-- The length of the current message's frame, 9 + MSG_LEN, as the 9-bit fields SER_LEN and TX_LEN hold it (R140, R144). -/
def State.frameLength (s : State) : BitVec 9 := BitVec.ofNat 9 (Config.minFrame + s.msgLen.toNat)

/-- SERLEN (43_codec_serialize.md R140). -/
def execSerlen (s : State) : Result :=
  .next ({ s with serLen := s.frameLength }.codecDone 0x4#4 .ok)

/-- SET_CHECKSUM (43_codec_serialize.md R142). -/
def execSetChecksum (s : State) : Result :=
  .next ({ s with msgCks := Config.ck (messageSpan s.message) }.codecDone 0x5#4 .ok)

/-- SERIALIZE (43_codec_serialize.md R144): the frame of the message as it stands, its stored checksum verbatim (R145). -/
def execSerialize (s : State) : Result :=
  .next ({ s with txbuf := s.txbuf.writeBytes 0 (frameBytes s.message), txLen := s.frameLength }.codecDone 0x6#4 .ok)

end Sys2Proof.Machine
end

