-- ==== Sys2Proof/Machine/Dispatch.lean ====
section
/-! DEFINITION. One arm per command: which meaning runs it. -/

namespace Sys2Proof.Machine

def exec (i : Instr) (s : State) : Host.Outcome State Fault Refusal :=
  match i with
  | .findHeader => Sys2Proof.Machine.execFindHeader s
  | .ckCompute => Sys2Proof.Machine.execCkCompute s
  | .parse => Sys2Proof.Machine.execParse s
  | .serlen => Sys2Proof.Machine.execSerlen s
  | .setChecksum => Sys2Proof.Machine.execSetChecksum s
  | .serialize => Sys2Proof.Machine.execSerialize s
  | .buildRead dst reg rdlen => Sys2Proof.Machine.execBuildRead dst reg rdlen s
  | .release => Sys2Proof.Machine.execRelease s
  | .addBit b => Sys2Proof.Machine.execAddBit b s
  | .checkParity b => Sys2Proof.Machine.execCheckParity b s
  | .bsdReset => Sys2Proof.Machine.execBsdReset s

end Sys2Proof.Machine
end

