-- ==== Sys2Proof/Machine/Transactions.lean ====
section
/-! DEFINITION. The host's transactions (20_memory.md R56): the register map of 10_state.md R22 read and written, the
buffers, Reset, and a command word delivered to its port. -/

namespace Sys2Proof.Machine

/-- What a register reads as (10_state.md R22 to R35); a write port reads 0. -/
def registerValue (r : Reg) (s : State) : Word :=
  match r with
  | .codecCmd => 0#32
  | .codecStatus => statusValue s.codecOp (codecCodeNumber s.codecCode)
  | .rxLen => s.rxLen.setWidth 32
  | .offset => s.offset.setWidth 32
  | .serLen => s.serLen.setWidth 32
  | .ckOut => pairValue s.ckOut
  | .txLen => s.txLen.setWidth 32
  | .msgLen => s.msgLen.setWidth 32
  | .msgSrc => s.msgSrc.setWidth 32
  | .msgDst => s.msgDst.setWidth 32
  | .msgCmd => s.msgCmd.setWidth 32
  | .msgArg => s.msgArg.setWidth 32
  | .msgCks => pairValue s.msgCks
  | .msgCtrl => (BitVec.ofBool s.owned).setWidth 32
  | .bsdCmd => 0#32
  | .bsdStatus => statusValue s.bsdOp (bsdCodeNumber s.bsdCode)
  | .bsdState => bsdStateValue s

/-- What RegRead returns for a register number: a reserved number reads 0 (10_state.md R22). -/
def numberValue (n : Word) (s : State) : Word :=
  match regOfNumber n with
  | some r => registerValue r s
  | none => 0#32

/-- A command word written to a port: decode, then run, all in the one transaction (30_encoding.md R72, R75; 20_memory.md
R57). -/
def issue (p : Port) (w : Word) (s : State) : Result :=
  match decode p w with
  | .ok i => exec i s
  | .error _ => .next (s.illegal p w)

/-- RX_LEN <- v[15:0], ignored where that exceeds RX_CAP (10_state.md R25). -/
def State.writeRxLen (s : State) (w : Word) : State :=
  if (lowHalf w).toNat ≤ Config.rxCap then { s with rxLen := lowHalf w } else s

/-- A write to a register: a field stored, a command issued, or nothing (10_state.md R22). -/
def writeRegister (r : Reg) (w : Word) (s : State) : Result :=
  match r with
  | .codecCmd => issue .codec w s
  | .codecStatus => .next s
  | .rxLen => .next (s.writeRxLen w)
  | .offset => .next s
  | .serLen => .next s
  | .ckOut => .next s
  | .txLen => .next s
  | .msgLen => .next { s with msgLen := lowByte w }
  | .msgSrc => .next { s with msgSrc := lowByte w }
  | .msgDst => .next { s with msgDst := lowByte w }
  | .msgCmd => .next { s with msgCmd := lowByte w }
  | .msgArg => .next { s with msgArg := lowByte w }
  | .msgCks => .next { s with msgCks := lowPair w }
  | .msgCtrl => .next s
  | .bsdCmd => issue .bsd w s
  | .bsdStatus => .next s
  | .bsdState => .next s

/-- RegWrite(n, w): a write to a reserved number is ignored (10_state.md R22). -/
def writeNumber (n w : Word) (s : State) : Result :=
  match regOfNumber n with
  | some r => writeRegister r w s
  | none => .next s

/-- The value a read transaction returned is kept for the host (00_scope.md R12). -/
def State.record (s : State) (v : ReadValue) : State := { s with returned := s.returned ++ [v] }

/-- One transaction, whole and at once (20_memory.md R56, R57). -/
def perform (t : Transaction) (s : State) : Result :=
  match t with
  | .regRead n => .next (s.record (.word (numberValue n s)))
  | .regWrite n w => writeNumber n w s
  | .bufRead sp i =>
    if i < Config.capacity sp then .next (s.record (.byte (s.byte sp i))) else .refused (.bufferIndex sp i)
  | .bufWrite sp i b =>
    if sp.hostWritable then
      if i < Config.capacity sp then .next (s.writeByte sp i b) else .refused (.bufferIndex sp i)
    else .refused (.txbufWrite i)
  | .reset => .next s.hardReset

/-- A sequence of transactions, one after another (20_memory.md R57). -/
def performAll : List Transaction → State → Result
  | [], s => .next s
  | t :: ts, s =>
    match perform t s with
    | .next s' => performAll ts s'
    | .fault r => .fault r
    | .refused r => .refused r

/-- The state with other transactions to come. -/
def State.withPending (s : State) (ts : List Transaction) : State := { s with pending := ts }

/-- The next thing that happens: the first of the host's transactions; with none to come the block is idle and stays as it
is (00_scope.md R11, 60_exceptions.md R200; log entry 1). -/
def nextTransaction (s : State) : Result :=
  match s.pending with
  | [] => .next s
  | t :: rest => perform t (s.withPending rest)

/-- The transaction that issues a word at the port it is meant for (30_encoding.md R90; log entry 11). -/
def issuing (w : Word) : Transaction := .regWrite (portOfWord w).register.number w

end Sys2Proof.Machine
end

