-- ==== Sys2Proof/Machine/Step.lean ====
section
/-! DEFINITION. One step of the machine: the first of the host's pending transactions. -/

namespace Sys2Proof.Machine

/-- One step: one host transaction (00_scope.md R11). -/
def step (s : State) : Host.Outcome State Fault Refusal := nextTransaction s

/-- The state whose next transaction is the write that issues the word (log entry 11). The block fetches nothing: a command
word is the data of the host's write (10_state.md R38). -/
def State.withFetchWord (s : State) (nbits w : Nat) : State :=
  s.withPending (issuing (tableWord nbits w) :: s.pending)

end Sys2Proof.Machine
end

