-- ==== Sys2Proof/Machine/Script.lean ====
section
/-! DEFINITION. The script form of 30_encoding.md R90 and R91: the transactions each line stands for, a script's run, and a
line's text. It is the host's notation; the block knows transactions only. -/

namespace Sys2Proof.Machine

/-- RegWrite(0x00, w) or RegWrite(0x10, w). -/
def writeTo (r : Reg) (w : Word) : Transaction := .regWrite r.number w

/-- `S[a] <- b0, S[a + 1] <- b1, …`, one BufWrite a byte. -/
def loadBytes (sp : Space) : Nat → List Nat → List Transaction
  | _, [] => []
  | a, b :: bs => .bufWrite sp a (BitVec.ofNat 8 b) :: loadBytes sp (a + 1) bs

/-- For each `i` with `a <= i < a + n`: read `tx[i]`, then write the byte read to `rx[i]`. -/
def copyTxToRx (s : State) : Nat → Nat → List Transaction
  | _, 0 => []
  | a, n + 1 => .bufRead .txbuf a :: .bufWrite .rxbuf a (s.byte .txbuf a) :: copyTxToRx s (a + 1) n

/-- The transactions of a line that is written when the block is in state `s` (R90, R91; log entry 12). Only APPENDRX and
TX2RX look at the state: the one at RX_LEN, the other at TX_LEN and TXBUF. -/
def expandLine (l : ScriptLine) (s : State) : List Transaction :=
  match l with
  | .findHeader => [writeTo .codecCmd 0x10000000#32]
  | .ckCompute => [writeTo .codecCmd 0x20000000#32]
  | .parse => [writeTo .codecCmd 0x30000000#32]
  | .serlen => [writeTo .codecCmd 0x40000000#32]
  | .setChecksum => [writeTo .codecCmd 0x50000000#32]
  | .serialize => [writeTo .codecCmd 0x60000000#32]
  | .release => [writeTo .codecCmd 0x80000000#32]
  | .buildRead dst reg rdlen =>
    [writeTo .codecCmd (BitVec.ofNat 32 (0x70000000 + dst * 2 ^ 20 + reg * 2 ^ 12 + rdlen))]
  | .addBit b => [writeTo .bsdCmd (BitVec.ofNat 32 (0xA0000000 + b))]
  | .checkParity b => [writeTo .bsdCmd (BitVec.ofNat 32 (0xB0000000 + b))]
  | .bsdReset => [writeTo .bsdCmd 0xC0000000#32]
  | .wr r v => [writeTo r (BitVec.ofNat 32 v)]
  | .rd r => [.regRead r.number]
  | .rxWrite i b => [.bufWrite .rxbuf i (BitVec.ofNat 8 b)]
  | .plWrite i b => [.bufWrite .payload i (BitVec.ofNat 8 b)]
  | .rxRead i => [.bufRead .rxbuf i]
  | .txRead i => [.bufRead .txbuf i]
  | .plRead i => [.bufRead .payload i]
  | .cmdc w => [writeTo .codecCmd (BitVec.ofNat 32 w)]
  | .cmdb w => [writeTo .bsdCmd (BitVec.ofNat 32 w)]
  | .reset => [.reset]
  | .loadrx bs => loadBytes .rxbuf 0 bs ++ [writeTo .rxLen (BitVec.ofNat 32 bs.length)]
  | .appendrx bs =>
    loadBytes .rxbuf s.rxLen.toNat bs ++ [writeTo .rxLen (BitVec.ofNat 32 (s.rxLen.toNat + bs.length))]
  | .loadpl bs => loadBytes .payload 0 bs ++ [writeTo .msgLen (BitVec.ofNat 32 bs.length)]
  | .tx2rx =>
    .regRead Reg.txLen.number :: copyTxToRx s 0 s.txLen.toNat ++ [writeTo .rxLen (BitVec.ofNat 32 s.txLen.toNat)]
  | .feed bs => bs.map (fun b => writeTo .bsdCmd (BitVec.ofNat 32 (0xA0000000 + b)))

/-- The preconditions of R91 that depend on the state: the bytes appended or looped back fit in RXBUF. -/
def lineReady (l : ScriptLine) (s : State) : Bool :=
  match l with
  | .appendrx bs => decide (s.rxLen.toNat + bs.length ≤ Config.rxCap)
  | .tx2rx => decide (s.txLen.toNat ≤ Config.rxCap)
  | _ => true

/-- A script, line by line, each line's transactions in turn. -/
def runScript : List ScriptLine → State → Result
  | [], s => .next s
  | l :: ls, s =>
    match performAll (expandLine l s) s with
    | .next s' => runScript ls s'
    | .fault r => .fault r
    | .refused r => .refused r

/-- A register's name in the register map (10_state.md R22). -/
def registerName : Reg → String
  | .codecCmd => "CODEC_CMD"
  | .codecStatus => "CODEC_STATUS"
  | .rxLen => "RX_LEN"
  | .offset => "OFFSET"
  | .serLen => "SER_LEN"
  | .ckOut => "CK_OUT"
  | .txLen => "TX_LEN"
  | .msgLen => "MSG_LEN"
  | .msgSrc => "MSG_SRC"
  | .msgDst => "MSG_DST"
  | .msgCmd => "MSG_CMD"
  | .msgArg => "MSG_ARG"
  | .msgCks => "MSG_CKS"
  | .msgCtrl => "MSG_CTRL"
  | .bsdCmd => "BSD_CMD"
  | .bsdStatus => "BSD_STATUS"
  | .bsdState => "BSD_STATE"

/-- Numbers in decimal, each after a space. -/
def numbersText (bs : List Nat) : String := String.join (bs.map (fun b => " " ++ toString b))

/-- The text of a line (R90, R91), numbers in decimal. -/
def lineText (l : ScriptLine) : String :=
  match l with
  | .findHeader => "FIND_HEADER"
  | .ckCompute => "CK_COMPUTE"
  | .parse => "PARSE"
  | .serlen => "SERLEN"
  | .setChecksum => "SET_CHECKSUM"
  | .serialize => "SERIALIZE"
  | .release => "RELEASE"
  | .buildRead dst reg rdlen => "BUILD_READ " ++ toString dst ++ ", " ++ toString reg ++ ", " ++ toString rdlen
  | .addBit b => "ADD_BIT " ++ toString b
  | .checkParity b => "CHECK_PARITY " ++ toString b
  | .bsdReset => "BSD_RESET"
  | .wr r v => "wr " ++ registerName r ++ ", " ++ toString v
  | .rd r => "rd " ++ registerName r
  | .rxWrite i b => "rx[" ++ toString i ++ "] <- " ++ toString b
  | .plWrite i b => "pl[" ++ toString i ++ "] <- " ++ toString b
  | .rxRead i => "rx[" ++ toString i ++ "]"
  | .txRead i => "tx[" ++ toString i ++ "]"
  | .plRead i => "pl[" ++ toString i ++ "]"
  | .cmdc w => "cmdc " ++ toString w
  | .cmdb w => "cmdb " ++ toString w
  | .reset => "reset"
  | .loadrx bs => "LOADRX" ++ numbersText bs
  | .appendrx bs => "APPENDRX" ++ numbersText bs
  | .loadpl bs => "LOADPL" ++ numbersText bs
  | .tx2rx => "TX2RX"
  | .feed bs => "FEED" ++ numbersText bs

end Sys2Proof.Machine
end

