-- ==== Sys2Proof/Safety.lean ====
section
/-! DEFINITION. The terms claims are stated in: what a buffer holds and where a frame lies in it, which transactions belong
to which unit, the invariant of reachable states, and a schedule that cannot be refused. -/

namespace Sys2Proof

/-- A read transaction (20_memory.md R56): it returns a value and has no effect (R55). -/
def Transaction.isRead : Transaction → Bool
  | .regRead _ => true
  | .regWrite _ _ => false
  | .bufRead _ _ => true
  | .bufWrite _ _ _ => false
  | .reset => false

/-- A transaction on the codec unit: its registers 0x00 to 0x0F and the three buffers (10_state.md R20, R21). -/
def Transaction.onCodec : Transaction → Bool
  | .regRead n => decide (n.toNat < 0x10)
  | .regWrite n _ => decide (n.toNat < 0x10)
  | .bufRead _ _ => true
  | .bufWrite _ _ _ => true
  | .reset => false

/-- A transaction on the decoder unit: its registers 0x10 to 0x12 (10_state.md R20, R21). -/
def Transaction.onDecoder : Transaction → Bool
  | .regRead n => decide (0x10 ≤ n.toNat ∧ n.toNat ≤ 0x12)
  | .regWrite n _ => decide (0x10 ≤ n.toNat ∧ n.toNat ≤ 0x12)
  | .bufRead _ _ => false
  | .bufWrite _ _ _ => false
  | .reset => false

namespace Machine

/-! ## What RXBUF holds -/

/-- The byte sequence `S[a ..< a + n]` (00_scope.md R10). -/
def byteRange (s : State) (sp : Space) (a n : Nat) : List Byte := (List.range n).map (fun k => s.byte sp (a + k))

/-- The sync marker stands at index `i` of RXBUF. -/
def MarkerAt (s : State) (i : Nat) : Prop := s.byte .rxbuf i = 0x5A#8 ∧ s.byte .rxbuf (i + 1) = 0xA5#8

/-- `off` is the least index of a marker within the valid bytes of RXBUF (41_frame_sync.md R111). -/
def FirstMarker (s : State) (off : Nat) : Prop :=
  off + 1 < s.rxLen.toNat ∧ MarkerAt s off ∧ ∀ j < off, ¬ MarkerAt s j

/-- No marker stands within the valid bytes of RXBUF. -/
def NoMarker (s : State) : Prop := ∀ i, i + 1 < s.rxLen.toNat → ¬ MarkerAt s i

/-- `payload_length` of the frame at `off` (30_encoding.md R80). -/
def payloadLength (s : State) (off : Nat) : Nat := (s.byte .rxbuf (off + 2)).toNat

/-- The whole frame at `off` lies within the valid bytes (42_codec_parse.md R122). -/
def FrameFits (s : State) (off : Nat) : Prop := off + 9 + payloadLength s off ≤ s.rxLen.toNat

/-- The pair of checksum bytes the frame at `off` carries (42_codec_parse.md R124). -/
def storedPair (s : State) (off : Nat) : BytePair :=
  (s.byte .rxbuf (off + 7 + payloadLength s off), s.byte .rxbuf (off + 8 + payloadLength s off))

/-- The pair CK gives for the span of the frame at `off` (42_codec_parse.md R124). -/
def computedPair (s : State) (off : Nat) : BytePair :=
  Config.ck (byteRange s .rxbuf (off + 2) (5 + payloadLength s off))

/-! ## The invariant of reachable states -/

/-- A buffer is in canonical form and within its size. -/
def BufferWf (s : State) (sp : Space) : Prop :=
  Memory.wf (s.memory sp) = true ∧ ∀ c ∈ s.memory sp, c.1 < Config.capacity sp

/-- Which codec opcode may stand beside a code: the column "written by" of 60_exceptions.md R191; OP 0 with OK is the
status right after reset. -/
def codecStatusLegal (op : BitVec 4) : CodecCode → Bool
  | .ok => decide (op.toNat ≤ 8)
  | .notFound => decide (op = 0x1#4)
  | .noHeader => decide (op = 0x3#4)
  | .truncated => decide (op = 0x3#4)
  | .checksumMismatch => decide (op = 0x3#4)
  | .noResource => decide (op = 0x3#4 ∨ op = 0x7#4)
  | .invalidParam => decide (op = 0x7#4)
  | .notOwned => decide (op = 0x8#4)
  | .illegalCmd => true

/-- Which OFFSET stands beside a code: the column "what else is recorded" of 60_exceptions.md R191. -/
def codecOffsetLegal (op : BitVec 4) (offset : BitVec 16) : CodecCode → Bool
  | .ok => true
  | .notFound => decide (offset = 0xFFFF#16)
  | .noHeader => decide (offset = 0xFFFF#16)
  | .truncated => decide (offset ≠ 0xFFFF#16)
  | .checksumMismatch => decide (offset ≠ 0xFFFF#16)
  | .noResource => decide (op = 0x3#4 → offset ≠ 0xFFFF#16)
  | .invalidParam => true
  | .notOwned => true
  | .illegalCmd => true

/-- Which decoder opcode and BIT_INDEX stand beside a code (60_exceptions.md R192); OP 0 with OK is the status right after
reset. -/
def bsdStatusLegal (op : BitVec 4) (k : Nat) : BsdCode → Bool
  | .ok => decide ((op = 0x0#4 ∨ op = 0xC#4) ∧ k = 0)
  | .accepted => decide (op = 0xA#4 ∧ 1 ≤ k ∧ k < 8)
  | .complete => decide (op = 0xA#4 ∧ k = 8)
  | .alreadyComplete => decide (op = 0xA#4 ∧ k = 8)
  | .matched => decide (op = 0xB#4 ∧ k = 8)
  | .mismatched => decide (op = 0xB#4 ∧ k = 8)
  | .notReady => decide (op = 0xB#4 ∧ k < 8)
  | .illegalCmd => true

/-- What holds of every state a run reaches. -/
structure State.Inv (s : State) : Prop where
  /-- The buffers are in canonical form and within their sizes. -/
  buffers : ∀ sp, BufferWf s sp
  /-- `RX_LEN <= RX_CAP` (10_state.md R25). -/
  rxLen_le : s.rxLen.toNat ≤ Config.rxCap
  /-- OFFSET is the sentinel or at most 65533 (10_state.md R26). -/
  offset_range : s.offset = 0xFFFF#16 ∨ s.offset.toNat ≤ 65533
  /-- SER_LEN is 0 since reset or 9 to 264 (10_state.md R27, R41). -/
  serLen_range : s.serLen = 0#9 ∨ (9 ≤ s.serLen.toNat ∧ s.serLen.toNat ≤ 264)
  /-- TX_LEN is 0 or 9 to 264 (10_state.md R27). -/
  txLen_range : s.txLen = 0#9 ∨ (9 ≤ s.txLen.toNat ∧ s.txLen.toNat ≤ 264)
  /-- Bits of VALUE not yet received are 0 (10_state.md R36 b). -/
  value_high : ∀ j, s.bitIndex.val ≤ j → s.value.getLsbD j = false
  /-- CODEC_STATUS is one the block writes (60_exceptions.md R191). -/
  codec_status : codecStatusLegal s.codecOp s.codecCode = true
  /-- OFFSET is what the code's row records (60_exceptions.md R191). -/
  codec_offset : codecOffsetLegal s.codecOp s.offset s.codecCode = true
  /-- BSD_STATUS is one the block writes in such a decoder state (60_exceptions.md R192). -/
  bsd_status : bsdStatusLegal s.bsdOp s.bitIndex.val s.bsdCode = true

/-! ## Safe runs -/

/-- Every transaction to come is a transaction of the block (20_memory.md R56): the run is never refused. -/
def SafeSchedule (s : State) : Prop := ∀ t ∈ s.pending, t.wellFormed = true

end Machine

end Sys2Proof
end

