-- ==== Sys2Proof/Certificates/Slice0/Obligations.lean ====
section
/-! DEFINITION. The statements about the machine, for the provers. -/

open Sys2Proof Sys2Proof.Machine

/-! ## Encoding (30_encoding.md) -/

/-- Every command's word decodes to it on its own port and is illegal on the other; the operands' every value is covered
(R70 to R73). -/
def Obligations.EncodedCommandDecodesToItself : Prop :=
  ∀ i : Instr,
    decode i.port (encode i) = .ok i ∧
    (∀ p, p ≠ i.port → ∃ e, decode p (encode i) = .error e) ∧
    decodeTableWord 32 (encode i).toNat = some i

/-- A legal word is the word of the command it decodes to, on that command's port: no bit of it is dropped (R70 to R73). -/
def Obligations.LegalWordEncodesItsCommand : Prop :=
  ∀ (p : Port) (w : Word) (i : Instr), decode p w = .ok i → i.port = p ∧ encode i = w

/-- The complete list of legal words (R74). -/
def Obligations.LegalWordsAreExactlyTheListed : Prop :=
  ∀ w : Word,
    ((∃ i, decode .codec w = .ok i) ↔
      (w.toNat ∈ [0x10000000, 0x20000000, 0x30000000, 0x40000000, 0x50000000, 0x60000000, 0x80000000] ∨
       (0x70000000 ≤ w.toNat ∧ w.toNat ≤ 0x7FFFFFFF))) ∧
    ((∃ i, decode .bsd w = .ok i) ↔
      w.toNat ∈ [0xA0000000, 0xA0000001, 0xB0000000, 0xB0000001, 0xC0000000])

/-- No two rows of the opcode map match the same word on the same port (R72). -/
def Obligations.AtMostOneRowMatches : Prop :=
  opcodeMap.Pairwise (fun r r' => ∀ (p : Port) (w : Word), ¬ (rowMatches p w r = true ∧ rowMatches p w r' = true))

/-- A few words of the opcode map decode to their commands (R73, 44_builder.md R160's example). -/
def Obligations.SampleWordsDecode : Prop :=
  decode .codec 0x10000000#32 = .ok .findHeader ∧
  decode .codec 0x30000000#32 = .ok .parse ∧
  decode .codec 0x72034002#32 = .ok (.buildRead 0x20#8 0x34#8 2#12) ∧
  decode .codec 0x80000000#32 = .ok .release ∧
  decode .bsd 0xA0000001#32 = .ok (.addBit true) ∧
  decode .bsd 0xB0000000#32 = .ok (.checkParity false) ∧
  decode .bsd 0xC0000000#32 = .ok .bsdReset

/-! ## Steps and transactions (20_memory.md) -/

/-- A step whose transaction writes a legal command word to a port runs the command, with that transaction taken off the
host's list and nothing else done around it (R57, 30_encoding.md R72). That State holds that list is the model's choice (log
entry 1). -/
def Obligations.StepRunsDecodedCommand : Prop :=
  ∀ (s : State) (p : Port) (w : Word) (i : Instr) (rest : List Transaction),
    s.pending = .regWrite p.register.number w :: rest → decode p w = .ok i →
    step s = exec i { s with pending := rest }

/-- With no transaction to come the block stays as it is. The model's choice (log entry 1), resting on 00_scope.md R11 and
60_exceptions.md R200. -/
def Obligations.IdleBlockStaysAsItIs : Prop :=
  ∀ s : State, s.pending = [] → step s = .next s

/-- A word of one of the three kinds R75 calls illegal writes OP and ILLEGAL_CMD into its port's status register and
changes nothing else. -/
def Obligations.IllegalWordWritesStatusOnly : Prop :=
  ∀ (s : State) (p : Port) (w : Word),
    (w.toNat / 2 ^ 28 ∈ [0x0, 0x9, 0xD, 0xE, 0xF] ∨
     (p = .codec ∧ w.toNat / 2 ^ 28 ∈ [0x1, 0x2, 0x3, 0x4, 0x5, 0x6, 0x8] ∧ w.toNat % 2 ^ 28 ≠ 0) ∨
     (p = .bsd ∧ w.toNat / 2 ^ 28 ∈ [0xA, 0xB] ∧ w.toNat % 2 ^ 28 / 2 ≠ 0) ∨
     (p = .bsd ∧ w.toNat / 2 ^ 28 = 0xC ∧ w.toNat % 2 ^ 28 ≠ 0) ∨
     (p = .bsd ∧ 0x1 ≤ w.toNat / 2 ^ 28 ∧ w.toNat / 2 ^ 28 ≤ 0x8) ∨
     (p = .codec ∧ 0xA ≤ w.toNat / 2 ^ 28 ∧ w.toNat / 2 ^ 28 ≤ 0xC)) →
    perform (.regWrite p.register.number w) s = .next
      (match p with
       | .codec => { s with codecOp := BitVec.ofNat 4 (w.toNat / 2 ^ 28), codecCode := .illegalCmd }
       | .bsd => { s with bsdOp := BitVec.ofNat 4 (w.toNat / 2 ^ 28), bsdCode := .illegalCmd })

/-- RegRead returns the fields of the register map at their bits, 0 for write ports and reserved numbers, and changes
nothing (10_state.md R22). That State holds the host's list and the values returned is the model's choice (log entries 1, 2).
-/
def Obligations.RegisterReadReturnsFields : Prop :=
  ∀ (s : State) (n : Word) (rest : List Transaction), s.pending = .regRead n :: rest →
    ∃ v : Word,
      step s = .next { s with pending := rest, returned := s.returned ++ [.word v] } ∧
      v.toNat =
        (match n.toNat with
         | 0x01 => s.codecOp.toNat * 16 + (codecCodeNumber s.codecCode).toNat
         | 0x02 => s.rxLen.toNat
         | 0x03 => s.offset.toNat
         | 0x04 => s.serLen.toNat
         | 0x05 => s.ckOut.2.toNat * 256 + s.ckOut.1.toNat
         | 0x06 => s.txLen.toNat
         | 0x08 => s.msgLen.toNat
         | 0x09 => s.msgSrc.toNat
         | 0x0A => s.msgDst.toNat
         | 0x0B => s.msgCmd.toNat
         | 0x0C => s.msgArg.toNat
         | 0x0D => s.msgCks.2.toNat * 256 + s.msgCks.1.toNat
         | 0x0E => s.owned.toNat
         | 0x11 => s.bsdOp.toNat * 16 + (bsdCodeNumber s.bsdCode).toNat
         | 0x12 => (if s.bitIndex.val = 8 then 1 else 0) * 4096 + s.bitIndex.val * 256 + s.value.toNat
         | _ => 0)

/-- RegWrite to a number that is no command port stores the host's own fields, ignores the bits above them, and ignores
read-only and reserved numbers and an RX_LEN above RX_CAP (10_state.md R22, R25, R29, R30). That State holds the host's list
is the model's choice (log entry 1). -/
def Obligations.RegisterWriteStoresFieldOrNothing : Prop :=
  ∀ (s : State) (n w : Word) (rest : List Transaction), s.pending = .regWrite n w :: rest →
    n.toNat ≠ 0x00 → n.toNat ≠ 0x10 →
    step s = .next
      (match n.toNat with
       | 0x02 => if w.toNat % 2 ^ 16 ≤ Config.rxCap then { s with pending := rest, rxLen := BitVec.ofNat 16 w.toNat }
                 else { s with pending := rest }
       | 0x08 => { s with pending := rest, msgLen := BitVec.ofNat 8 w.toNat }
       | 0x09 => { s with pending := rest, msgSrc := BitVec.ofNat 8 w.toNat }
       | 0x0A => { s with pending := rest, msgDst := BitVec.ofNat 8 w.toNat }
       | 0x0B => { s with pending := rest, msgCmd := BitVec.ofNat 8 w.toNat }
       | 0x0C => { s with pending := rest, msgArg := BitVec.ofNat 8 w.toNat }
       | 0x0D => { s with pending := rest, msgCks := (BitVec.ofNat 8 w.toNat, BitVec.ofNat 8 (w.toNat / 256)) }
       | _ => { s with pending := rest })

/-- RX_LEN: what a host write stores, that no command writes it, and that it never exceeds RX_CAP (10_state.md R25). -/
def Obligations.RxLenStaysWithinCapacity : Prop :=
  (∀ (s : State) (w : Word),
    perform (.regWrite 0x02#32 w) s = .next
      (if w.toNat % 2 ^ 16 ≤ Config.rxCap then { s with rxLen := BitVec.ofNat 16 w.toNat } else s)) ∧
  (∀ (i : Instr) (s t : State), exec i s = .next t → t.rxLen = s.rxLen) ∧
  State.reset.rxLen.toNat ≤ Config.rxCap ∧
  (∀ s t : State, s.rxLen.toNat ≤ Config.rxCap → step s = .next t → t.rxLen.toNat ≤ Config.rxCap)

/-- Host access to the buffers: a write in range to RXBUF or PAYLOAD changes that byte and no other of any buffer, and no
register; a read in range returns the byte (R56). That State holds the values returned, in a list to which a read adds its
own, is the model's choice (log entry 2). -/
def Obligations.HostBufferAccess : Prop :=
  (∀ (s : State) (sp : Space) (i : Nat) (b : Byte), sp ≠ .txbuf → i < Config.capacity sp →
    ∃ t : State, perform (.bufWrite sp i b) s = .next t ∧
      (∀ (sp' : Space) (j : Nat), t.byte sp' j = if sp' = sp ∧ j = i then b else s.byte sp' j) ∧
      t = { s with rxbuf := t.rxbuf, payload := t.payload }) ∧
  (∀ (s : State) (sp : Space) (i : Nat), i < Config.capacity sp →
    perform (.bufRead sp i) s = .next { s with returned := s.returned ++ [.byte (s.byte sp i)] })

/-- What is refused is exactly what is no transaction of the block: a buffer index out of range, a host write to TXBUF
(R56, 92_eei_decisions.md D32). That the model refuses there is its choice (log entry 8). -/
def Obligations.RefusedExactlyWhenIllFormed : Prop :=
  ∀ (tr : Transaction) (s : State),
    ((∃ t, perform tr s = .next t) ↔ tr.wellFormed = true) ∧
    ((∃ r, perform tr s = .refused r) ↔
      ((∃ sp i, tr = .bufRead sp i ∧ Config.capacity sp ≤ i) ∨
       (∃ sp i b, tr = .bufWrite sp i b ∧ (sp = .txbuf ∨ Config.capacity sp ≤ i))))

/-- Any number of reads changes nothing but the list of values returned, and the same read returns the same value each
time (R55). That State holds that list is the model's choice (log entry 2). -/
def Obligations.ReadsHaveNoSideEffect : Prop :=
  ∀ (tr : Transaction) (s : State) (k : Nat), tr.isRead = true → tr.wellFormed = true →
    ∃ v : ReadValue, performAll (List.replicate k tr) s =
      .next { s with returned := s.returned ++ List.replicate k v }

/-- The state right after power-on and after a Reset transaction in any state, register by register (10_state.md R41). -/
def Obligations.ResetStateValues : Prop :=
  ∀ r : State, (r = State.reset ∨ ∃ s : State, perform .reset s = .next r) →
    r.codecCode = .ok ∧ r.codecOp = 0#4 ∧ r.rxLen = 0#16 ∧ r.offset = 0xFFFF#16 ∧ r.serLen = 0#9 ∧
    r.ckOut = (0#8, 0#8) ∧ r.txLen = 0#9 ∧ r.msgLen = 0#8 ∧ r.msgSrc = 0#8 ∧ r.msgDst = 0#8 ∧ r.msgCmd = 0#8 ∧
    r.msgArg = 0#8 ∧ r.msgCks = (0#8, 0#8) ∧ r.owned = false ∧ r.bsdCode = .ok ∧ r.bsdOp = 0#4 ∧ r.value = 0#8 ∧
    r.bitIndex.val = 0 ∧ r.ready = false

/-- The Reset transaction, in any state, gives every register its reset value and every buffer byte an unspecified value of
a new draw; at power-on the bytes are those of draw 0 (70_reset_and_hazards.md R220, 93_implementation_defined.md U3). That
the host's list of transactions and the values it has read survive, and that draws are numbered, is the model's choice (log
entries 1, 2, 6). -/
def Obligations.ResetTransactionFromAnyState : Prop :=
  (∀ (sp : Space) (i : Nat), State.reset.byte sp i = Config.powerOnByte 0 sp i) ∧
  ∀ (s : State) (rest : List Transaction), s.pending = .reset :: rest →
    ∃ t : State,
      step s = .next t ∧
      t = { State.reset with pending := rest, returned := s.returned, resets := s.resets + 1 } ∧
      ∀ (sp : Space) (i : Nat), t.byte sp i = Config.powerOnByte (s.resets + 1) sp i

/-! ## Frame Synchronizer (41_frame_sync.md) -/

/-- FIND_HEADER: the least marker's index and OK, or the sentinel and NOT_FOUND; nothing else changes (R110). -/
def Obligations.FindHeaderReportsFirstMarker : Prop :=
  decode .codec 0x10000000#32 = .ok .findHeader ∧
  ∀ s : State,
    (∀ off, FirstMarker s off → ∃ t : State, exec .findHeader s = .next t ∧ t.offset.toNat = off ∧
      t = { s with offset := t.offset, codecOp := 1#4, codecCode := .ok }) ∧
    (NoMarker s → exec .findHeader s = .next { s with offset := 0xFFFF#16, codecOp := 1#4, codecCode := .notFound })

/-- A marker split at the end of the valid bytes is found once its second byte is appended and RX_LEN is raised (R114). -/
def Obligations.SplitMarkerIsFoundOnRetry : Prop :=
  ∀ s : State, NoMarker s → 1 ≤ s.rxLen.toNat → s.rxLen.toNat + 1 ≤ Config.rxCap →
    s.byte .rxbuf (s.rxLen.toNat - 1) = 0x5A#8 →
    ∃ t : State,
      performAll
        [.bufWrite .rxbuf s.rxLen.toNat 0xA5#8, .regWrite 0x02#32 (BitVec.ofNat 32 (s.rxLen.toNat + 1)),
         .regWrite 0x00#32 0x10000000#32] s = .next t ∧
      t.codecCode = .ok ∧ t.offset.toNat = s.rxLen.toNat - 1

/-- OFFSET is written by FIND_HEADER and PARSE (and Reset) and by nothing else, and a found offset is at most RX_LEN - 2
(10_state.md R26). That State holds the host's list is the model's choice (log entry 1). -/
def Obligations.OffsetIsWrittenBySearchesOnly : Prop :=
  (∀ (s t : State) (tr : Transaction) (rest : List Transaction), s.pending = tr :: rest → step s = .next t →
    t.offset ≠ s.offset → tr = .regWrite 0x00#32 0x10000000#32 ∨ tr = .regWrite 0x00#32 0x30000000#32 ∨ tr = .reset) ∧
  (∀ (i : Instr) (s t : State), i = .findHeader ∨ i = .parse → exec i s = .next t →
    (NoMarker s ∧ t.offset = 0xFFFF#16) ∨ (¬ NoMarker s ∧ t.offset.toNat + 2 ≤ s.rxLen.toNat ∧ t.offset.toNat ≤ 65533))

/-! ## Checksum Utility (40_checksum.md) -/

/-- CK_COMPUTE: CK of the valid bytes of RXBUF into CK_OUT; always OK; nothing else changes (R102). -/
def Obligations.CkComputeOverValidBytes : Prop :=
  decode .codec 0x20000000#32 = .ok .ckCompute ∧
  ∀ s : State, exec .ckCompute s =
    .next { s with ckOut := Config.ck (byteRange s .rxbuf 0 s.rxLen.toNat), codecOp := 2#4, codecCode := .ok }

/-- CK_COMPUTE is determined by RX_LEN and the bytes below it, whatever else differs (R103). -/
def Obligations.CkComputeIsDeterministic : Prop :=
  ∀ s s' t t' : State, s'.rxLen = s.rxLen → (∀ i < s.rxLen.toNat, s'.byte .rxbuf i = s.byte .rxbuf i) →
    exec .ckCompute s = .next t → exec .ckCompute s' = .next t' → t'.ckOut = t.ckOut

/-! ## Message Codec, parse side (42_codec_parse.md) -/

/-- PARSE without a marker is NO_HEADER with the sentinel; with one, OFFSET is its index, whatever the status (R121). -/
def Obligations.ParseReportsMarkerOffset : Prop :=
  ∀ s : State,
    (NoMarker s → exec .parse s = .next { s with offset := 0xFFFF#16, codecOp := 3#4, codecCode := .noHeader }) ∧
    (∀ off, FirstMarker s off → ∃ t : State, exec .parse s = .next t ∧ t.offset.toNat = off ∧ t.codecCode ≠ .noHeader)

/-- PARSE is TRUNCATED exactly when fewer than 9, or fewer than 9 + L, bytes stand from the first marker to RX_LEN (R122). -/
def Obligations.ParseTruncatedWhenFrameIncomplete : Prop :=
  ∀ (s : State) (off : Nat), FirstMarker s off →
    ((s.rxLen.toNat - off < 9 ∨ s.rxLen.toNat - off < 9 + payloadLength s off) →
      exec .parse s = .next { s with offset := BitVec.ofNat 16 off, codecOp := 3#4, codecCode := .truncated }) ∧
    (9 + payloadLength s off ≤ s.rxLen.toNat - off → ∀ t, exec .parse s = .next t → t.codecCode ≠ .truncated)

/-- PARSE compares both checksum bytes of a complete frame with CK of its span, position by position (R124). -/
def Obligations.ParseComparesChecksum : Prop :=
  ∀ (s : State) (off : Nat), FirstMarker s off → FrameFits s off →
    (storedPair s off ≠ computedPair s off →
      exec .parse s = .next { s with offset := BitVec.ofNat 16 off, codecOp := 3#4, codecCode := .checksumMismatch }) ∧
    (storedPair s off = computedPair s off → ∀ t, exec .parse s = .next t → t.codecCode ≠ .checksumMismatch)

/-- PARSE of a valid frame while the slot is owned is NO_RESOURCE, and NO_RESOURCE is reported of no other frame (R125). -/
def Obligations.ParseNeedsFreeSlot : Prop :=
  (∀ (s : State) (off : Nat), FirstMarker s off → FrameFits s off → storedPair s off = computedPair s off →
    s.owned = true →
    exec .parse s = .next { s with offset := BitVec.ofNat 16 off, codecOp := 3#4, codecCode := .noResource }) ∧
  (∀ s t : State, exec .parse s = .next t → t.codecCode = .noResource →
    s.owned = true ∧ ∃ off, FirstMarker s off ∧ FrameFits s off ∧ storedPair s off = computedPair s off)

/-- PARSE of a valid frame into a free slot: the header fields, the stored pair and a copy of the payload, OWNED set, OK, the
message valid; PAYLOAD beyond the payload, and everything else, as before (R126). -/
def Obligations.ParseStoresValidFrame : Prop :=
  decode .codec 0x30000000#32 = .ok .parse ∧
  ∀ (s : State) (off : Nat), FirstMarker s off → FrameFits s off → storedPair s off = computedPair s off →
    s.owned = false →
    ∃ t : State, exec .parse s = .next t ∧
      t = { s with
        offset := BitVec.ofNat 16 off, codecOp := 3#4, codecCode := .ok, owned := true,
        msgLen := s.byte .rxbuf (off + 2), msgSrc := s.byte .rxbuf (off + 3), msgDst := s.byte .rxbuf (off + 4),
        msgCmd := s.byte .rxbuf (off + 5), msgArg := s.byte .rxbuf (off + 6), msgCks := storedPair s off,
        payload := t.payload } ∧
      MessageValid t.message ∧
      ∀ i, t.byte .payload i = if i < payloadLength s off then s.byte .rxbuf (off + 7 + i) else s.byte .payload i

/-- A PARSE that does not end with OK has written CODEC_STATUS and OFFSET and nothing else; RXBUF and RX_LEN are never
changed (R127). -/
def Obligations.ParseFailureLeavesSlot : Prop :=
  ∀ s t : State, exec .parse s = .next t →
    (t.codecCode ≠ .ok → t = { s with offset := t.offset, codecOp := t.codecOp, codecCode := t.codecCode }) ∧
    t.rxbuf = s.rxbuf ∧ t.rxLen = s.rxLen

/-- Right after a PARSE or BUILD_READ that ends with OK the slot is owned and its message is valid (10_state.md R33). -/
def Obligations.SuccessLeavesValidOwnedMessage : Prop :=
  ∀ (i : Instr) (s t : State), (i = .parse ∨ ∃ dst reg rdlen, i = .buildRead dst reg rdlen) →
    exec i s = .next t → t.codecCode = .ok →
    t.owned = true ∧ t.msgCks = Config.ck ([t.msgLen, t.msgSrc, t.msgDst, t.msgCmd, t.msgArg] ++
      byteRange t .payload 0 t.msgLen.toNat)

/-- No command looks at RXBUF at or beyond RX_LEN: with other bytes there, every command ends the same (20_memory.md R51,
R123). -/
def Obligations.BytesBeyondRxLenNeverMatter : Prop :=
  ∀ (i : Instr) (s : State) (m : Memory),
    (∀ k < s.rxLen.toNat, State.byte { s with rxbuf := m } .rxbuf k = s.byte .rxbuf k) →
    ∃ t : State, exec i s = .next t ∧ exec i { s with rxbuf := m } = .next { t with rxbuf := m }

/-- A frame cut short anywhere is never parsed: NO_HEADER when fewer than two of its bytes are there, else TRUNCATED
(R123, R133). -/
def Obligations.TruncatedFrameIsNeverAccepted : Prop :=
  ∀ (s : State) (m : Message), m.payload.length = m.len.toNat → s.rxLen.toNat < 9 + m.len.toNat →
    byteRange s .rxbuf 0 s.rxLen.toNat = (frameBytes m).take s.rxLen.toNat →
    exec .parse s = .next
      (if s.rxLen.toNat < 2 then { s with offset := 0xFFFF#16, codecOp := 3#4, codecCode := .noHeader }
       else { s with offset := 0#16, codecOp := 3#4, codecCode := .truncated })

/-- Changing either checksum byte of a valid frame makes PARSE reject it, whatever CK is (R133). -/
def Obligations.ChangedChecksumByteIsRejected : Prop :=
  ∀ (s : State) (off k : Nat) (b : Byte), FirstMarker s off → FrameFits s off → storedPair s off = computedPair s off →
    s.rxLen.toNat ≤ Config.rxCap → (k = off + 7 + payloadLength s off ∨ k = off + 8 + payloadLength s off) →
    b ≠ s.byte .rxbuf k →
    ∃ t : State, performAll [.bufWrite .rxbuf k b, .regWrite 0x00#32 0x30000000#32] s = .next t ∧
      t.codecCode = .checksumMismatch ∧ t.offset.toNat = off ∧ t.message = s.message ∧ t.owned = s.owned

/-- The round trip: any message, checksummed, serialized, looped back and parsed (after a RELEASE if the slot was owned),
comes back equal field for field, for every length whose frame fits RXBUF and for every CK (R133). A line as a
term that expands in a state is the model's form of the script (log entry 12). -/
def Obligations.SerializedMessageParsesBack : Prop :=
  ∀ s : State, 9 + s.msgLen.toNat ≤ Config.rxCap →
    ∃ t : State,
      runScript ([.setChecksum, .serialize, .tx2rx] ++ (if s.owned then [.release] else []) ++ [.parse]) s = .next t ∧
      t.codecCode = .ok ∧ t.offset = 0#16 ∧ t.owned = true ∧
      t.message = { s.message with cks := Config.ck (messageSpan s.message) }

/-- RELEASE frees an owned slot with OK, reports a free one with NOT_OWNED, and changes nothing else; no other command and
no host write clears OWNED, so that of all transactions RELEASE and Reset alone do (R130; 10_state.md R31, R41). -/
def Obligations.ReleaseFreesOwnedSlot : Prop :=
  decode .codec 0x80000000#32 = .ok .release ∧
  ∀ s : State,
    (s.owned = true → exec .release s = .next { s with owned := false, codecOp := 8#4, codecCode := .ok }) ∧
    (s.owned = false → exec .release s = .next { s with codecOp := 8#4, codecCode := .notOwned }) ∧
    ∀ (tr : Transaction) (t : State), perform tr s = .next t → s.owned = true → t.owned = false →
      tr = .regWrite 0x00#32 0x80000000#32 ∨ tr = .reset

/-! ## Message Codec, serialize side (43_codec_serialize.md) -/

/-- SERLEN: 9 + MSG_LEN, without wrap, into SER_LEN; always OK; nothing else changes; SER_LEN is a snapshot, which no other
command and no host write changes (R140). -/
def Obligations.SerlenIsNinePlusLength : Prop :=
  decode .codec 0x40000000#32 = .ok .serlen ∧
  ∀ s : State,
    (∃ t : State, exec .serlen s = .next t ∧ t.serLen.toNat = 9 + s.msgLen.toNat ∧
      t = { s with serLen := t.serLen, codecOp := 4#4, codecCode := .ok }) ∧
    ∀ (tr : Transaction) (t : State), perform tr s = .next t → tr ≠ .regWrite 0x00#32 0x40000000#32 → tr ≠ .reset →
      t.serLen = s.serLen

/-- SET_CHECKSUM: CK of the header fields and the payload into MSG_CKS; always OK; nothing else changes; doing it again
changes nothing (R142). -/
def Obligations.SetChecksumOverSpan : Prop :=
  decode .codec 0x50000000#32 = .ok .setChecksum ∧
  ∀ s : State, ∃ t : State, exec .setChecksum s = .next t ∧
    t = { s with
      msgCks := Config.ck ([s.msgLen, s.msgSrc, s.msgDst, s.msgCmd, s.msgArg] ++ byteRange s .payload 0 s.msgLen.toNat),
      codecOp := 5#4, codecCode := .ok } ∧
    MessageValid t.message ∧ exec .setChecksum t = .next t

/-- SERIALIZE: the frame byte by byte into TXBUF, the stored checksum verbatim, TX_LEN; always OK; TXBUF beyond the frame,
and everything else, as before (R144, R148). -/
def Obligations.SerializeWritesFrame : Prop :=
  decode .codec 0x60000000#32 = .ok .serialize ∧
  ∀ s : State, ∃ t : State, exec .serialize s = .next t ∧
    t = { s with txbuf := t.txbuf, txLen := t.txLen, codecOp := 6#4, codecCode := .ok } ∧
    t.txLen.toNat = 9 + s.msgLen.toNat ∧
    t.byte .txbuf 0 = 0x5A#8 ∧ t.byte .txbuf 1 = 0xA5#8 ∧ t.byte .txbuf 2 = s.msgLen ∧ t.byte .txbuf 3 = s.msgSrc ∧
    t.byte .txbuf 4 = s.msgDst ∧ t.byte .txbuf 5 = s.msgCmd ∧ t.byte .txbuf 6 = s.msgArg ∧
    (∀ i < s.msgLen.toNat, t.byte .txbuf (7 + i) = s.byte .payload i) ∧
    t.byte .txbuf (7 + s.msgLen.toNat) = s.msgCks.1 ∧ t.byte .txbuf (8 + s.msgLen.toNat) = s.msgCks.2 ∧
    (∀ i, 9 + s.msgLen.toNat ≤ i → t.byte .txbuf i = s.byte .txbuf i)

/-! ## Register-Read Message Builder (44_builder.md) -/

/-- BUILD_READ: the word of its operands, INVALID_PARAM before NO_RESOURCE before OK, and on OK the request with its
checksum in the slot; only PL[0] of PAYLOAD is written, and a failure writes the status only (R160, R162, R163). -/
def Obligations.BuildReadStoresRequest : Prop :=
  ∀ (dst reg : Byte) (rdlen : BitVec 12),
    decode .codec (BitVec.ofNat 32 (0x70000000 + dst.toNat * 2 ^ 20 + reg.toNat * 2 ^ 12 + rdlen.toNat)) =
      .ok (.buildRead dst reg rdlen) ∧
    ∀ s : State,
      (255 < rdlen.toNat →
        exec (.buildRead dst reg rdlen) s = .next { s with codecOp := 7#4, codecCode := .invalidParam }) ∧
      (rdlen.toNat ≤ 255 → s.owned = true →
        exec (.buildRead dst reg rdlen) s = .next { s with codecOp := 7#4, codecCode := .noResource }) ∧
      (rdlen.toNat ≤ 255 → s.owned = false →
        ∃ t : State, exec (.buildRead dst reg rdlen) s = .next t ∧
          t = { s with
            codecOp := 7#4, codecCode := .ok, owned := true, msgLen := 1#8, msgSrc := Config.ownAddr, msgDst := dst,
            msgCmd := Config.cmdRead, msgArg := reg, payload := t.payload,
            msgCks := Config.ck [1#8, Config.ownAddr, dst, Config.cmdRead, reg, BitVec.ofNat 8 rdlen.toNat] } ∧
          ∀ i, t.byte .payload i = if i = 0 then BitVec.ofNat 8 rdlen.toNat else s.byte .payload i)

/-! ## Bit-Stream Decoder (45_bitstream.md) -/

/-- ADD_BIT: below 8 it writes bit BIT_INDEX of VALUE and no other, advances BIT_INDEX and reports ACCEPTED, or COMPLETE on
the eighth bit; at 8 it discards the bit with ALREADY_COMPLETE; nothing else changes (R170). -/
def Obligations.AddBitFillsNextPosition : Prop :=
  ∀ b : Bool,
    decode .bsd (BitVec.ofNat 32 (0xA0000000 + b.toNat)) = .ok (.addBit b) ∧
    ∀ s : State,
      (s.bitIndex.val = 8 → exec (.addBit b) s = .next { s with bsdOp := 0xA#4, bsdCode := .alreadyComplete }) ∧
      (s.bitIndex.val < 8 →
        ∃ t : State, exec (.addBit b) s = .next t ∧
          t.bitIndex.val = s.bitIndex.val + 1 ∧
          (∀ j, t.value.getLsbD j = if j = s.bitIndex.val then b else s.value.getLsbD j) ∧
          t = { s with
            value := t.value, bitIndex := t.bitIndex, bsdOp := 0xA#4,
            bsdCode := if s.bitIndex.val + 1 = 8 then .complete else .accepted })

/-- After BSD_RESET or Reset, any sequence of bits: the first eight make the byte, least significant first, BIT_INDEX
counts them, the eighth is COMPLETE and makes READY 1, and later ones are discarded with ALREADY_COMPLETE (R173). -/
def Obligations.BitsAssembleLeastSignificantFirst : Prop :=
  ∀ (s : State) (r : Transaction) (bits : List Bool), r = .reset ∨ r = .regWrite 0x10#32 0xC0000000#32 →
    ∃ t : State,
      performAll (r :: bits.map (fun b => .regWrite 0x10#32 (BitVec.ofNat 32 (0xA0000000 + b.toNat)))) s = .next t ∧
      t.bitIndex.val = min bits.length 8 ∧ t.ready = decide (8 ≤ bits.length) ∧
      t.value.toNat = ∑ i ∈ Finset.range (min bits.length 8), (bits.getD i false).toNat * 2 ^ i ∧
      t.bsdCode = (if bits.length = 0 then .ok else if bits.length < 8 then .accepted
        else if bits.length = 8 then .complete else .alreadyComplete)

/-- CHECK_PARITY: NOT_READY below 8; at 8 MATCH exactly when the bit is the exclusive-or of VALUE's bits, else MISMATCH;
only the status is written (R174). -/
def Obligations.CheckParityComparesWhenReady : Prop :=
  ∀ b : Bool,
    decode .bsd (BitVec.ofNat 32 (0xB0000000 + b.toNat)) = .ok (.checkParity b) ∧
    ∀ s : State,
      (s.bitIndex.val < 8 → exec (.checkParity b) s = .next { s with bsdOp := 0xB#4, bsdCode := .notReady }) ∧
      (s.bitIndex.val = 8 →
        exec (.checkParity b) s = .next
          { s with
            bsdOp := 0xB#4,
            bsdCode := if b.toNat = (∑ i ∈ Finset.range 8, (s.value.getLsbD i).toNat) % 2 then .matched else .mismatched })

/-- The parity bit of a byte is the sum of its bits modulo 2, and makes the number of ones even (R176). -/
def Obligations.ParityMakesOnesEven : Prop :=
  ∀ v : Byte,
    (parity v).toNat = (∑ i ∈ Finset.range 8, (v.getLsbD i).toNat) % 2 ∧
    ((∑ i ∈ Finset.range 8, (v.getLsbD i).toNat) + (parity v).toNat) % 2 = 0

/-- BSD_RESET: VALUE and BIT_INDEX are 0 and the status is OK, in any state; nothing else changes (R178). -/
def Obligations.BsdResetClearsAccumulator : Prop :=
  decode .bsd 0xC0000000#32 = .ok .bsdReset ∧
  ∀ s : State, ∃ t : State, exec .bsdReset s = .next t ∧ t.bitIndex.val = 0 ∧ t.ready = false ∧
    t = { s with value := 0#8, bitIndex := t.bitIndex, bsdOp := 0xC#4, bsdCode := .ok }

/-! ## The whole machine -/

/-- Any codec transaction commutes with any decoder transaction: the block ends the same in either order, and each of the
two returns the same values, in either order and alone (10_state.md R21). `cv` and `dv` are what `c` and `d` return: one value
for a read, none otherwise. So unless both are reads nothing at all tells the orders apart. That State holds the values
returned, in their order, is the model's choice (log entry 2). -/
def Obligations.CodecAndDecoderCommute : Prop :=
  ∀ (s : State) (c d : Transaction), c.onCodec = true → d.onDecoder = true → c.wellFormed = true →
    ∃ (cv dv : List ReadValue) (a b t u : State),
      perform c s = .next a ∧ a.returned = s.returned ++ cv ∧ cv.length = c.isRead.toNat ∧
      perform d s = .next b ∧ b.returned = s.returned ++ dv ∧ dv.length = d.isRead.toNat ∧
      perform d a = .next t ∧ t.returned = s.returned ++ cv ++ dv ∧
      perform c b = .next u ∧ u.returned = s.returned ++ dv ++ cv ∧
      performAll [c, d] s = .next t ∧ performAll [d, c] s = .next u ∧
      u = { t with returned := u.returned } ∧
      (c.isRead = false ∨ d.isRead = false → u = t)

/-- No codec command reads or writes decoder state, and no decoder command reads or writes codec state (10_state.md R21). -/
def Obligations.UnitsShareNoState : Prop :=
  (∀ (i : Instr) (s t : State), i.port = .codec → exec i s = .next t →
    t.bsdCode = s.bsdCode ∧ t.bsdOp = s.bsdOp ∧ t.value = s.value ∧ t.bitIndex = s.bitIndex ∧
    ∀ (c : BsdCode) (op : BitVec 4) (v : Byte) (k : Fin 9),
      exec i { s with bsdCode := c, bsdOp := op, value := v, bitIndex := k } =
        .next { t with bsdCode := c, bsdOp := op, value := v, bitIndex := k }) ∧
  (∀ (i : Instr) (s t : State), i.port = .bsd → exec i s = .next t →
    t = { s with bsdCode := t.bsdCode, bsdOp := t.bsdOp, value := t.value, bitIndex := t.bitIndex } ∧
    ∀ s' t' : State, s'.value = s.value → s'.bitIndex = s.bitIndex → exec i s' = .next t' →
      t'.bsdCode = t.bsdCode ∧ t'.bsdOp = t.bsdOp ∧ t'.value = t.value ∧ t'.bitIndex = t.bitIndex)

/-- OWNED is set only by a PARSE or BUILD_READ that ends with OK, and cleared only by a RELEASE that ends with OK and by
Reset (10_state.md R31). That State holds the host's list is the model's choice (log entry 1). -/
def Obligations.OwnedChangesOnlyByClaimAndRelease : Prop :=
  ∀ (s t : State) (tr : Transaction) (rest : List Transaction), s.pending = tr :: rest → step s = .next t →
    t.owned ≠ s.owned →
    (t.owned = true ∧ t.codecCode = .ok ∧ ∃ w, tr = .regWrite 0x00#32 w ∧
      (decode .codec w = .ok .parse ∨ ∃ dst reg rdlen, decode .codec w = .ok (.buildRead dst reg rdlen))) ∨
    (t.owned = false ∧ (tr = .reset ∨ (tr = .regWrite 0x00#32 0x80000000#32 ∧ t.codecCode = .ok)))

/-- Every write to a command port sets OP to bits [31:28] of the word, and only such writes (and Reset) change that port's
status register (10_state.md R24, R34). That State holds the host's list is the model's choice (log entry 1). -/
def Obligations.StatusIsWrittenByItsPortOnly : Prop :=
  ∀ (s t : State) (tr : Transaction) (rest : List Transaction), s.pending = tr :: rest → step s = .next t → tr ≠ .reset →
    (∀ w, tr = .regWrite 0x00#32 w → t.codecOp.toNat = w.toNat / 2 ^ 28) ∧
    ((∀ w, tr ≠ .regWrite 0x00#32 w) → t.codecOp = s.codecOp ∧ t.codecCode = s.codecCode) ∧
    (∀ w, tr = .regWrite 0x10#32 w → t.bsdOp.toNat = w.toNat / 2 ^ 28) ∧
    ((∀ w, tr ≠ .regWrite 0x10#32 w) → t.bsdOp = s.bsdOp ∧ t.bsdCode = s.bsdCode)

/-- What each command may write, and that it writes nothing else: of the block, no more than the column "writes" of
20_memory.md R51 gives it, its own port's status register among that; of the model's own fields (log entries 1, 2, 6),
nothing. -/
def Obligations.CommandsWriteOnlyTheirOwn : Prop :=
  ∀ (i : Instr) (s t : State), exec i s = .next t →
    t.rxbuf = s.rxbuf ∧ t.rxLen = s.rxLen ∧ t.pending = s.pending ∧ t.returned = s.returned ∧ t.resets = s.resets ∧
    (i.port ≠ .codec → t.codecCode = s.codecCode ∧ t.codecOp = s.codecOp) ∧
    (i.port ≠ .bsd → t.bsdCode = s.bsdCode ∧ t.bsdOp = s.bsdOp) ∧
    (i ≠ .findHeader → i ≠ .parse → t.offset = s.offset) ∧
    (i ≠ .ckCompute → t.ckOut = s.ckOut) ∧
    (i ≠ .serlen → t.serLen = s.serLen) ∧
    (i ≠ .serialize → t.txbuf = s.txbuf ∧ t.txLen = s.txLen) ∧
    (i ≠ .parse → (∀ dst reg rdlen, i ≠ .buildRead dst reg rdlen) →
      t.msgLen = s.msgLen ∧ t.msgSrc = s.msgSrc ∧ t.msgDst = s.msgDst ∧ t.msgCmd = s.msgCmd ∧ t.msgArg = s.msgArg ∧
      t.payload = s.payload ∧ (i ≠ .setChecksum → t.msgCks = s.msgCks) ∧ (i ≠ .release → t.owned = s.owned)) ∧
    ((∀ b, i ≠ .addBit b) → i ≠ .bsdReset → t.value = s.value ∧ t.bitIndex = s.bitIndex)

/-- Every command completes: it ends in a next state in every state, with its opcode in its port's status register
(60_exceptions.md R190, 70_reset_and_hazards.md R240). -/
def Obligations.EveryCommandCompletes : Prop :=
  ∀ (i : Instr) (s : State), ∃ t : State, exec i s = .next t ∧
    (i.port = .codec → t.codecOp = i.opcode ∧ t.codecCode ≠ .illegalCmd) ∧
    (i.port = .bsd → t.bsdOp = i.opcode ∧ t.bsdCode ≠ .illegalCmd)

/-- The invariant of reachable states is kept by every step: buffers in canonical form and within their sizes, RX_LEN
within RX_CAP, OFFSET, SER_LEN, TX_LEN in their ranges, bits not yet received 0, each status one the block writes (10_state.md
R25, R26, R27, R36; 60_exceptions.md R191, R192). -/
def Obligations.InvariantKeptByEveryStep : Prop :=
  ∀ s t : State, s.Inv → step s = .next t → t.Inv

/-- The invariant holds at reset. -/
def Obligations.InvariantHoldsAtReset : Prop := State.reset.Inv

/-- A host that issues only transactions of the block is never refused: its whole list runs, in as many steps as it has
transactions, and the block then idles (20_memory.md R56, R57). The list in State and the idle step are the model's choice
(log entry 1). -/
def Obligations.SafeScheduleRunsToItsEnd : Prop :=
  ∀ s : State, SafeSchedule s →
    ∃ t : State, Host.Core.run core s.pending.length s = .next t ∧ t.pending = [] ∧
      ∀ k, Host.Core.run core k t = .next t

/-- Steps perform the host's transactions one at a time, in their order, each seeing all before it and none after it: the
list to come has no effect on the block (20_memory.md R57). The list in State is the model's choice (log entry 1). -/
def Obligations.StepsPerformScheduleInOrder : Prop :=
  ∀ (ts rest : List Transaction) (s : State),
    Host.Core.run core ts.length { s with pending := ts ++ rest } = performAll ts { s with pending := rest } ∧
    ∀ t : State, performAll ts { s with pending := rest } = .next t →
      t.pending = rest ∧ performAll ts s = .next { t with pending := s.pending }

/-- The copies PARSE and SERIALIZE make are decoupled: writes to RXBUF and RX_LEN leave the message, writes to PAYLOAD and
the MSG registers leave RXBUF, TXBUF and TX_LEN (20_memory.md R60). -/
def Obligations.CopiesAreDecoupled : Prop :=
  (∀ (ts : List Transaction) (s t : State),
    (∀ tr ∈ ts, (∃ i b, tr = .bufWrite .rxbuf i b) ∨ ∃ w, tr = .regWrite 0x02#32 w) → performAll ts s = .next t →
    t.message = s.message ∧ t.owned = s.owned) ∧
  (∀ (ts : List Transaction) (s t : State),
    (∀ tr ∈ ts, (∃ i b, tr = .bufWrite .payload i b) ∨
      ∃ n w, tr = .regWrite n w ∧ 0x08 ≤ n.toNat ∧ n.toNat ≤ 0x0D) → performAll ts s = .next t →
    t.txLen = s.txLen ∧ ∀ i, t.byte .rxbuf i = s.byte .rxbuf i ∧ t.byte .txbuf i = s.byte .txbuf i)

/-- The command lines of a script write the words of their commands to the commands' ports (30_encoding.md R90). A line as a term
that expands in a state is the model's form of the script (log entry 12). -/
def Obligations.ScriptLinesIssueTheirCommands : Prop :=
  ∀ s : State,
    (∀ p ∈ [(ScriptLine.findHeader, Instr.findHeader), (.ckCompute, .ckCompute), (.parse, .parse), (.serlen, .serlen),
        (.setChecksum, .setChecksum), (.serialize, .serialize), (.release, .release), (.bsdReset, .bsdReset)],
      expandLine p.1 s = [.regWrite p.2.port.register.number (encode p.2)]) ∧
    (∀ (dst reg : Byte) (rdlen : BitVec 12),
      expandLine (.buildRead dst.toNat reg.toNat rdlen.toNat) s = [.regWrite 0x00#32 (encode (.buildRead dst reg rdlen))]) ∧
    (∀ b : Bool, expandLine (.addBit b.toNat) s = [.regWrite 0x10#32 (encode (.addBit b))]) ∧
    (∀ b : Bool, expandLine (.checkParity b.toNat) s = [.regWrite 0x10#32 (encode (.checkParity b))])

/-- The numbers of the status codes (60_exceptions.md R191, R192). -/
def Obligations.StatusCodeNumbers : Prop :=
  [CodecCode.ok, .notFound, .noHeader, .truncated, .checksumMismatch, .noResource, .invalidParam, .notOwned,
    .illegalCmd].map (fun c => (codecCodeNumber c).toNat) = [0, 1, 2, 3, 4, 5, 6, 7, 15] ∧
  [BsdCode.ok, .accepted, .complete, .alreadyComplete, .matched, .mismatched, .notReady,
    .illegalCmd].map (fun c => (bsdCodeNumber c).toNat) = [0, 1, 2, 3, 4, 5, 6, 15]
end

