-- ==== Sys2Proof/Laws/State.lean ====
section
/-! SUPPORT. One lemma per field per named update of the state, so that no proof unfolds an update. -/

namespace Sys2Proof.Machine

variable (s : State)

/-! ## codecDone -/

@[simp] theorem State.codecDone_codecCode (op : BitVec 4) (c : CodecCode) :
    (s.codecDone op c).codecCode = c := rfl
@[simp] theorem State.codecDone_codecOp (op : BitVec 4) (c : CodecCode) :
    (s.codecDone op c).codecOp = op := rfl
@[simp] theorem State.codecDone_rxLen (op : BitVec 4) (c : CodecCode) :
    (s.codecDone op c).rxLen = s.rxLen := rfl
@[simp] theorem State.codecDone_offset (op : BitVec 4) (c : CodecCode) :
    (s.codecDone op c).offset = s.offset := rfl
@[simp] theorem State.codecDone_serLen (op : BitVec 4) (c : CodecCode) :
    (s.codecDone op c).serLen = s.serLen := rfl
@[simp] theorem State.codecDone_ckOut (op : BitVec 4) (c : CodecCode) :
    (s.codecDone op c).ckOut = s.ckOut := rfl
@[simp] theorem State.codecDone_txLen (op : BitVec 4) (c : CodecCode) :
    (s.codecDone op c).txLen = s.txLen := rfl
@[simp] theorem State.codecDone_msgLen (op : BitVec 4) (c : CodecCode) :
    (s.codecDone op c).msgLen = s.msgLen := rfl
@[simp] theorem State.codecDone_msgSrc (op : BitVec 4) (c : CodecCode) :
    (s.codecDone op c).msgSrc = s.msgSrc := rfl
@[simp] theorem State.codecDone_msgDst (op : BitVec 4) (c : CodecCode) :
    (s.codecDone op c).msgDst = s.msgDst := rfl
@[simp] theorem State.codecDone_msgCmd (op : BitVec 4) (c : CodecCode) :
    (s.codecDone op c).msgCmd = s.msgCmd := rfl
@[simp] theorem State.codecDone_msgArg (op : BitVec 4) (c : CodecCode) :
    (s.codecDone op c).msgArg = s.msgArg := rfl
@[simp] theorem State.codecDone_msgCks (op : BitVec 4) (c : CodecCode) :
    (s.codecDone op c).msgCks = s.msgCks := rfl
@[simp] theorem State.codecDone_owned (op : BitVec 4) (c : CodecCode) :
    (s.codecDone op c).owned = s.owned := rfl
@[simp] theorem State.codecDone_rxbuf (op : BitVec 4) (c : CodecCode) :
    (s.codecDone op c).rxbuf = s.rxbuf := rfl
@[simp] theorem State.codecDone_txbuf (op : BitVec 4) (c : CodecCode) :
    (s.codecDone op c).txbuf = s.txbuf := rfl
@[simp] theorem State.codecDone_payload (op : BitVec 4) (c : CodecCode) :
    (s.codecDone op c).payload = s.payload := rfl
@[simp] theorem State.codecDone_bsdCode (op : BitVec 4) (c : CodecCode) :
    (s.codecDone op c).bsdCode = s.bsdCode := rfl
@[simp] theorem State.codecDone_bsdOp (op : BitVec 4) (c : CodecCode) :
    (s.codecDone op c).bsdOp = s.bsdOp := rfl
@[simp] theorem State.codecDone_value (op : BitVec 4) (c : CodecCode) :
    (s.codecDone op c).value = s.value := rfl
@[simp] theorem State.codecDone_bitIndex (op : BitVec 4) (c : CodecCode) :
    (s.codecDone op c).bitIndex = s.bitIndex := rfl
@[simp] theorem State.codecDone_pending (op : BitVec 4) (c : CodecCode) :
    (s.codecDone op c).pending = s.pending := rfl
@[simp] theorem State.codecDone_returned (op : BitVec 4) (c : CodecCode) :
    (s.codecDone op c).returned = s.returned := rfl
@[simp] theorem State.codecDone_resets (op : BitVec 4) (c : CodecCode) :
    (s.codecDone op c).resets = s.resets := rfl

/-! ## bsdDone -/

@[simp] theorem State.bsdDone_codecCode (op : BitVec 4) (c : BsdCode) :
    (s.bsdDone op c).codecCode = s.codecCode := rfl
@[simp] theorem State.bsdDone_codecOp (op : BitVec 4) (c : BsdCode) :
    (s.bsdDone op c).codecOp = s.codecOp := rfl
@[simp] theorem State.bsdDone_rxLen (op : BitVec 4) (c : BsdCode) :
    (s.bsdDone op c).rxLen = s.rxLen := rfl
@[simp] theorem State.bsdDone_offset (op : BitVec 4) (c : BsdCode) :
    (s.bsdDone op c).offset = s.offset := rfl
@[simp] theorem State.bsdDone_serLen (op : BitVec 4) (c : BsdCode) :
    (s.bsdDone op c).serLen = s.serLen := rfl
@[simp] theorem State.bsdDone_ckOut (op : BitVec 4) (c : BsdCode) :
    (s.bsdDone op c).ckOut = s.ckOut := rfl
@[simp] theorem State.bsdDone_txLen (op : BitVec 4) (c : BsdCode) :
    (s.bsdDone op c).txLen = s.txLen := rfl
@[simp] theorem State.bsdDone_msgLen (op : BitVec 4) (c : BsdCode) :
    (s.bsdDone op c).msgLen = s.msgLen := rfl
@[simp] theorem State.bsdDone_msgSrc (op : BitVec 4) (c : BsdCode) :
    (s.bsdDone op c).msgSrc = s.msgSrc := rfl
@[simp] theorem State.bsdDone_msgDst (op : BitVec 4) (c : BsdCode) :
    (s.bsdDone op c).msgDst = s.msgDst := rfl
@[simp] theorem State.bsdDone_msgCmd (op : BitVec 4) (c : BsdCode) :
    (s.bsdDone op c).msgCmd = s.msgCmd := rfl
@[simp] theorem State.bsdDone_msgArg (op : BitVec 4) (c : BsdCode) :
    (s.bsdDone op c).msgArg = s.msgArg := rfl
@[simp] theorem State.bsdDone_msgCks (op : BitVec 4) (c : BsdCode) :
    (s.bsdDone op c).msgCks = s.msgCks := rfl
@[simp] theorem State.bsdDone_owned (op : BitVec 4) (c : BsdCode) :
    (s.bsdDone op c).owned = s.owned := rfl
@[simp] theorem State.bsdDone_rxbuf (op : BitVec 4) (c : BsdCode) :
    (s.bsdDone op c).rxbuf = s.rxbuf := rfl
@[simp] theorem State.bsdDone_txbuf (op : BitVec 4) (c : BsdCode) :
    (s.bsdDone op c).txbuf = s.txbuf := rfl
@[simp] theorem State.bsdDone_payload (op : BitVec 4) (c : BsdCode) :
    (s.bsdDone op c).payload = s.payload := rfl
@[simp] theorem State.bsdDone_bsdCode (op : BitVec 4) (c : BsdCode) :
    (s.bsdDone op c).bsdCode = c := rfl
@[simp] theorem State.bsdDone_bsdOp (op : BitVec 4) (c : BsdCode) :
    (s.bsdDone op c).bsdOp = op := rfl
@[simp] theorem State.bsdDone_value (op : BitVec 4) (c : BsdCode) :
    (s.bsdDone op c).value = s.value := rfl
@[simp] theorem State.bsdDone_bitIndex (op : BitVec 4) (c : BsdCode) :
    (s.bsdDone op c).bitIndex = s.bitIndex := rfl
@[simp] theorem State.bsdDone_pending (op : BitVec 4) (c : BsdCode) :
    (s.bsdDone op c).pending = s.pending := rfl
@[simp] theorem State.bsdDone_returned (op : BitVec 4) (c : BsdCode) :
    (s.bsdDone op c).returned = s.returned := rfl
@[simp] theorem State.bsdDone_resets (op : BitVec 4) (c : BsdCode) :
    (s.bsdDone op c).resets = s.resets := rfl

/-! ## record -/

@[simp] theorem State.record_codecCode (v : ReadValue) :
    (s.record v).codecCode = s.codecCode := rfl
@[simp] theorem State.record_codecOp (v : ReadValue) :
    (s.record v).codecOp = s.codecOp := rfl
@[simp] theorem State.record_rxLen (v : ReadValue) :
    (s.record v).rxLen = s.rxLen := rfl
@[simp] theorem State.record_offset (v : ReadValue) :
    (s.record v).offset = s.offset := rfl
@[simp] theorem State.record_serLen (v : ReadValue) :
    (s.record v).serLen = s.serLen := rfl
@[simp] theorem State.record_ckOut (v : ReadValue) :
    (s.record v).ckOut = s.ckOut := rfl
@[simp] theorem State.record_txLen (v : ReadValue) :
    (s.record v).txLen = s.txLen := rfl
@[simp] theorem State.record_msgLen (v : ReadValue) :
    (s.record v).msgLen = s.msgLen := rfl
@[simp] theorem State.record_msgSrc (v : ReadValue) :
    (s.record v).msgSrc = s.msgSrc := rfl
@[simp] theorem State.record_msgDst (v : ReadValue) :
    (s.record v).msgDst = s.msgDst := rfl
@[simp] theorem State.record_msgCmd (v : ReadValue) :
    (s.record v).msgCmd = s.msgCmd := rfl
@[simp] theorem State.record_msgArg (v : ReadValue) :
    (s.record v).msgArg = s.msgArg := rfl
@[simp] theorem State.record_msgCks (v : ReadValue) :
    (s.record v).msgCks = s.msgCks := rfl
@[simp] theorem State.record_owned (v : ReadValue) :
    (s.record v).owned = s.owned := rfl
@[simp] theorem State.record_rxbuf (v : ReadValue) :
    (s.record v).rxbuf = s.rxbuf := rfl
@[simp] theorem State.record_txbuf (v : ReadValue) :
    (s.record v).txbuf = s.txbuf := rfl
@[simp] theorem State.record_payload (v : ReadValue) :
    (s.record v).payload = s.payload := rfl
@[simp] theorem State.record_bsdCode (v : ReadValue) :
    (s.record v).bsdCode = s.bsdCode := rfl
@[simp] theorem State.record_bsdOp (v : ReadValue) :
    (s.record v).bsdOp = s.bsdOp := rfl
@[simp] theorem State.record_value (v : ReadValue) :
    (s.record v).value = s.value := rfl
@[simp] theorem State.record_bitIndex (v : ReadValue) :
    (s.record v).bitIndex = s.bitIndex := rfl
@[simp] theorem State.record_pending (v : ReadValue) :
    (s.record v).pending = s.pending := rfl
@[simp] theorem State.record_returned (v : ReadValue) :
    (s.record v).returned = s.returned ++ [v] := rfl
@[simp] theorem State.record_resets (v : ReadValue) :
    (s.record v).resets = s.resets := rfl

/-! ## withPending -/

@[simp] theorem State.withPending_codecCode (ts : List Transaction) :
    (s.withPending ts).codecCode = s.codecCode := rfl
@[simp] theorem State.withPending_codecOp (ts : List Transaction) :
    (s.withPending ts).codecOp = s.codecOp := rfl
@[simp] theorem State.withPending_rxLen (ts : List Transaction) :
    (s.withPending ts).rxLen = s.rxLen := rfl
@[simp] theorem State.withPending_offset (ts : List Transaction) :
    (s.withPending ts).offset = s.offset := rfl
@[simp] theorem State.withPending_serLen (ts : List Transaction) :
    (s.withPending ts).serLen = s.serLen := rfl
@[simp] theorem State.withPending_ckOut (ts : List Transaction) :
    (s.withPending ts).ckOut = s.ckOut := rfl
@[simp] theorem State.withPending_txLen (ts : List Transaction) :
    (s.withPending ts).txLen = s.txLen := rfl
@[simp] theorem State.withPending_msgLen (ts : List Transaction) :
    (s.withPending ts).msgLen = s.msgLen := rfl
@[simp] theorem State.withPending_msgSrc (ts : List Transaction) :
    (s.withPending ts).msgSrc = s.msgSrc := rfl
@[simp] theorem State.withPending_msgDst (ts : List Transaction) :
    (s.withPending ts).msgDst = s.msgDst := rfl
@[simp] theorem State.withPending_msgCmd (ts : List Transaction) :
    (s.withPending ts).msgCmd = s.msgCmd := rfl
@[simp] theorem State.withPending_msgArg (ts : List Transaction) :
    (s.withPending ts).msgArg = s.msgArg := rfl
@[simp] theorem State.withPending_msgCks (ts : List Transaction) :
    (s.withPending ts).msgCks = s.msgCks := rfl
@[simp] theorem State.withPending_owned (ts : List Transaction) :
    (s.withPending ts).owned = s.owned := rfl
@[simp] theorem State.withPending_rxbuf (ts : List Transaction) :
    (s.withPending ts).rxbuf = s.rxbuf := rfl
@[simp] theorem State.withPending_txbuf (ts : List Transaction) :
    (s.withPending ts).txbuf = s.txbuf := rfl
@[simp] theorem State.withPending_payload (ts : List Transaction) :
    (s.withPending ts).payload = s.payload := rfl
@[simp] theorem State.withPending_bsdCode (ts : List Transaction) :
    (s.withPending ts).bsdCode = s.bsdCode := rfl
@[simp] theorem State.withPending_bsdOp (ts : List Transaction) :
    (s.withPending ts).bsdOp = s.bsdOp := rfl
@[simp] theorem State.withPending_value (ts : List Transaction) :
    (s.withPending ts).value = s.value := rfl
@[simp] theorem State.withPending_bitIndex (ts : List Transaction) :
    (s.withPending ts).bitIndex = s.bitIndex := rfl
@[simp] theorem State.withPending_pending (ts : List Transaction) :
    (s.withPending ts).pending = ts := rfl
@[simp] theorem State.withPending_returned (ts : List Transaction) :
    (s.withPending ts).returned = s.returned := rfl
@[simp] theorem State.withPending_resets (ts : List Transaction) :
    (s.withPending ts).resets = s.resets := rfl

/-! ## storeMessage -/

@[simp] theorem State.storeMessage_codecCode (m : Message) :
    (s.storeMessage m).codecCode = s.codecCode := rfl
@[simp] theorem State.storeMessage_codecOp (m : Message) :
    (s.storeMessage m).codecOp = s.codecOp := rfl
@[simp] theorem State.storeMessage_rxLen (m : Message) :
    (s.storeMessage m).rxLen = s.rxLen := rfl
@[simp] theorem State.storeMessage_offset (m : Message) :
    (s.storeMessage m).offset = s.offset := rfl
@[simp] theorem State.storeMessage_serLen (m : Message) :
    (s.storeMessage m).serLen = s.serLen := rfl
@[simp] theorem State.storeMessage_ckOut (m : Message) :
    (s.storeMessage m).ckOut = s.ckOut := rfl
@[simp] theorem State.storeMessage_txLen (m : Message) :
    (s.storeMessage m).txLen = s.txLen := rfl
@[simp] theorem State.storeMessage_msgLen (m : Message) :
    (s.storeMessage m).msgLen = m.len := rfl
@[simp] theorem State.storeMessage_msgSrc (m : Message) :
    (s.storeMessage m).msgSrc = m.src := rfl
@[simp] theorem State.storeMessage_msgDst (m : Message) :
    (s.storeMessage m).msgDst = m.dst := rfl
@[simp] theorem State.storeMessage_msgCmd (m : Message) :
    (s.storeMessage m).msgCmd = m.cmd := rfl
@[simp] theorem State.storeMessage_msgArg (m : Message) :
    (s.storeMessage m).msgArg = m.arg := rfl
@[simp] theorem State.storeMessage_msgCks (m : Message) :
    (s.storeMessage m).msgCks = m.cks := rfl
@[simp] theorem State.storeMessage_owned (m : Message) :
    (s.storeMessage m).owned = true := rfl
@[simp] theorem State.storeMessage_rxbuf (m : Message) :
    (s.storeMessage m).rxbuf = s.rxbuf := rfl
@[simp] theorem State.storeMessage_txbuf (m : Message) :
    (s.storeMessage m).txbuf = s.txbuf := rfl
@[simp] theorem State.storeMessage_payload (m : Message) :
    (s.storeMessage m).payload = s.payload.writeBytes 0 m.payload := rfl
@[simp] theorem State.storeMessage_bsdCode (m : Message) :
    (s.storeMessage m).bsdCode = s.bsdCode := rfl
@[simp] theorem State.storeMessage_bsdOp (m : Message) :
    (s.storeMessage m).bsdOp = s.bsdOp := rfl
@[simp] theorem State.storeMessage_value (m : Message) :
    (s.storeMessage m).value = s.value := rfl
@[simp] theorem State.storeMessage_bitIndex (m : Message) :
    (s.storeMessage m).bitIndex = s.bitIndex := rfl
@[simp] theorem State.storeMessage_pending (m : Message) :
    (s.storeMessage m).pending = s.pending := rfl
@[simp] theorem State.storeMessage_returned (m : Message) :
    (s.storeMessage m).returned = s.returned := rfl
@[simp] theorem State.storeMessage_resets (m : Message) :
    (s.storeMessage m).resets = s.resets := rfl

/-! ## hardReset -/

@[simp] theorem State.hardReset_codecCode :
    (s.hardReset).codecCode = State.reset.codecCode := rfl
@[simp] theorem State.hardReset_codecOp :
    (s.hardReset).codecOp = State.reset.codecOp := rfl
@[simp] theorem State.hardReset_rxLen :
    (s.hardReset).rxLen = State.reset.rxLen := rfl
@[simp] theorem State.hardReset_offset :
    (s.hardReset).offset = State.reset.offset := rfl
@[simp] theorem State.hardReset_serLen :
    (s.hardReset).serLen = State.reset.serLen := rfl
@[simp] theorem State.hardReset_ckOut :
    (s.hardReset).ckOut = State.reset.ckOut := rfl
@[simp] theorem State.hardReset_txLen :
    (s.hardReset).txLen = State.reset.txLen := rfl
@[simp] theorem State.hardReset_msgLen :
    (s.hardReset).msgLen = State.reset.msgLen := rfl
@[simp] theorem State.hardReset_msgSrc :
    (s.hardReset).msgSrc = State.reset.msgSrc := rfl
@[simp] theorem State.hardReset_msgDst :
    (s.hardReset).msgDst = State.reset.msgDst := rfl
@[simp] theorem State.hardReset_msgCmd :
    (s.hardReset).msgCmd = State.reset.msgCmd := rfl
@[simp] theorem State.hardReset_msgArg :
    (s.hardReset).msgArg = State.reset.msgArg := rfl
@[simp] theorem State.hardReset_msgCks :
    (s.hardReset).msgCks = State.reset.msgCks := rfl
@[simp] theorem State.hardReset_owned :
    (s.hardReset).owned = State.reset.owned := rfl
@[simp] theorem State.hardReset_rxbuf :
    (s.hardReset).rxbuf = State.reset.rxbuf := rfl
@[simp] theorem State.hardReset_txbuf :
    (s.hardReset).txbuf = State.reset.txbuf := rfl
@[simp] theorem State.hardReset_payload :
    (s.hardReset).payload = State.reset.payload := rfl
@[simp] theorem State.hardReset_bsdCode :
    (s.hardReset).bsdCode = State.reset.bsdCode := rfl
@[simp] theorem State.hardReset_bsdOp :
    (s.hardReset).bsdOp = State.reset.bsdOp := rfl
@[simp] theorem State.hardReset_value :
    (s.hardReset).value = State.reset.value := rfl
@[simp] theorem State.hardReset_bitIndex :
    (s.hardReset).bitIndex = State.reset.bitIndex := rfl
@[simp] theorem State.hardReset_pending :
    (s.hardReset).pending = s.pending := rfl
@[simp] theorem State.hardReset_returned :
    (s.hardReset).returned = s.returned := rfl
@[simp] theorem State.hardReset_resets :
    (s.hardReset).resets = s.resets + 1 := rfl

/-! ## The values of a reset -/

@[simp] theorem State.reset_codecCode : State.reset.codecCode = .ok := rfl
@[simp] theorem State.reset_codecOp : State.reset.codecOp = 0#4 := rfl
@[simp] theorem State.reset_rxLen : State.reset.rxLen = 0#16 := rfl
@[simp] theorem State.reset_offset : State.reset.offset = Config.notFound := rfl
@[simp] theorem State.reset_serLen : State.reset.serLen = 0#9 := rfl
@[simp] theorem State.reset_ckOut : State.reset.ckOut = (0#8, 0#8) := rfl
@[simp] theorem State.reset_txLen : State.reset.txLen = 0#9 := rfl
@[simp] theorem State.reset_msgLen : State.reset.msgLen = 0#8 := rfl
@[simp] theorem State.reset_msgSrc : State.reset.msgSrc = 0#8 := rfl
@[simp] theorem State.reset_msgDst : State.reset.msgDst = 0#8 := rfl
@[simp] theorem State.reset_msgCmd : State.reset.msgCmd = 0#8 := rfl
@[simp] theorem State.reset_msgArg : State.reset.msgArg = 0#8 := rfl
@[simp] theorem State.reset_msgCks : State.reset.msgCks = (0#8, 0#8) := rfl
@[simp] theorem State.reset_owned : State.reset.owned = false := rfl
@[simp] theorem State.reset_rxbuf : State.reset.rxbuf = [] := rfl
@[simp] theorem State.reset_txbuf : State.reset.txbuf = [] := rfl
@[simp] theorem State.reset_payload : State.reset.payload = [] := rfl
@[simp] theorem State.reset_bsdCode : State.reset.bsdCode = .ok := rfl
@[simp] theorem State.reset_bsdOp : State.reset.bsdOp = 0#4 := rfl
@[simp] theorem State.reset_value : State.reset.value = 0#8 := rfl
@[simp] theorem State.reset_bitIndex : State.reset.bitIndex = 0 := rfl
@[simp] theorem State.reset_pending : State.reset.pending = [] := rfl
@[simp] theorem State.reset_returned : State.reset.returned = [] := rfl
@[simp] theorem State.reset_resets : State.reset.resets = 0 := rfl

end Sys2Proof.Machine
end

