-- ==== Sys2Proof/Laws/Memory.lean ====
section
/-! SUPPORT. What the buffer operations do: a read after a write, the canonical form and the bounds they keep. -/

namespace Sys2Proof.Machine

@[simp] theorem Memory.read?_nil (a : Nat) : Memory.read? [] a = none := rfl

/-- A read after a one-byte write: the byte there, the old contents elsewhere. -/
theorem Memory.read?_write (m : Memory) (a : Nat) (v : Byte) (i : Nat) :
    Memory.read? (Memory.write m a v) i = if i = a then some v else Memory.read? m i := by
  induction m with
  | nil => simp [Memory.write, Memory.read?, eq_comm]
  | cons c m ih =>
    obtain ⟨k, b⟩ := c
    by_cases hi : i = a
    · subst hi
      by_cases h1 : i < k
      · simp [Memory.write, Memory.read?, h1]
      · by_cases h2 : i = k
        · simp [Memory.write, Memory.read?, h2]
        · have h3 : ¬ k = i := fun e => h2 e.symm
          simp [Memory.write, Memory.read?, h1, h2, h3, ih]
    · have hi' : ¬ a = i := fun e => hi e.symm
      by_cases h1 : a < k
      · simp [Memory.write, Memory.read?, h1, hi, hi']
      · by_cases h2 : a = k
        · have h3 : ¬ k = i := fun e => hi' (h2.trans e)
          have h4 : ¬ i = k := fun e => h3 e.symm
          simp [Memory.write, Memory.read?, h2, h3, h4]
        · simp [Memory.write, Memory.read?, h1, h2, hi, ih]

/-- A read after writing a byte sequence. -/
theorem Memory.read?_writeBytes (bs : List Byte) (m : Memory) (a i : Nat) :
    Memory.read? (Memory.writeBytes m a bs) i = if a ≤ i ∧ i < a + bs.length then bs[i - a]? else Memory.read? m i := by
  induction bs generalizing m a with
  | nil => simp [Memory.writeBytes]
  | cons b bs ih =>
    simp only [Memory.writeBytes, ih, Memory.read?_write, List.length_cons]
    by_cases h : a = i
    · subst h; simp
    · by_cases h1 : a + 1 ≤ i
      · have e : i - a = (i - (a + 1)) + 1 := by omega
        by_cases h2 : i < a + 1 + bs.length
        · rw [if_pos ⟨h1, h2⟩, if_pos ⟨by omega, by omega⟩, e, List.getElem?_cons_succ]
        · rw [if_neg (by omega), if_neg (by omega), if_neg (by omega)]
      · rw [if_neg (by omega), if_neg (by omega), if_neg (by omega)]

/-- The indices listed after a write are the old ones and the one written. -/
theorem Memory.mem_write {m : Memory} {a : Nat} {v : Byte} {c : Host.Cell} (h : c ∈ Memory.write m a v) :
    c.1 = a ∨ c ∈ m := by
  induction m with
  | nil => simp_all [Memory.write]
  | cons d m ih =>
    obtain ⟨k, b⟩ := d
    simp only [Memory.write] at h
    split at h
    · simp only [List.mem_cons] at h ⊢; rcases h with rfl | h | h <;> simp_all
    · split at h
      · simp only [List.mem_cons] at h ⊢; rcases h with rfl | h <;> simp_all
      · simp only [List.mem_cons] at h ⊢; rcases h with rfl | h
        · simp
        · rcases ih h with h | h <;> simp_all

/-- `Memory.wf` of a buffer with a first entry: the rest lies above it and is well formed. -/
theorem Memory.wf_cons {c : Host.Cell} {m : Memory} :
    Memory.wf (c :: m) = true ↔ (∀ d ∈ m, c.1 < d.1) ∧ Memory.wf m = true := by
  simp [Memory.wf, List.pairwise_cons]

@[simp] theorem Memory.wf_nil : Memory.wf [] = true := rfl

/-- A write keeps the canonical form. -/
theorem Memory.wf_write {m : Memory} (a : Nat) (v : Byte) (h : Memory.wf m = true) :
    Memory.wf (Memory.write m a v) = true := by
  induction m with
  | nil => rfl
  | cons d m ih =>
    obtain ⟨k, b⟩ := d
    obtain ⟨h1, h2⟩ := Memory.wf_cons.mp h
    simp only [Memory.write]
    split
    · refine Memory.wf_cons.mpr ⟨fun d hd => ?_, h⟩
      rcases List.mem_cons.mp hd with rfl | hd
      · assumption
      · exact Nat.lt_trans ‹_› (h1 d hd)
    · split
      · subst_vars; exact Memory.wf_cons.mpr ⟨h1, h2⟩
      · refine Memory.wf_cons.mpr ⟨fun d hd => ?_, ih h2⟩
        rcases Memory.mem_write hd with e | hd
        · simp only at *; omega
        · exact h1 d hd

/-- Writing a byte sequence keeps the canonical form. -/
theorem Memory.wf_writeBytes {m : Memory} (a : Nat) (bs : List Byte) (h : Memory.wf m = true) :
    Memory.wf (Memory.writeBytes m a bs) = true := by
  induction bs generalizing m a with
  | nil => exact h
  | cons b bs ih => exact ih (a + 1) (Memory.wf_write a b h)

/-- Every listed index after a write lies below a bound that held before and covers the index written. -/
theorem Memory.bound_write {m : Memory} {a n : Nat} {v : Byte} (h : ∀ c ∈ m, c.1 < n) (ha : a < n) :
    ∀ c ∈ Memory.write m a v, c.1 < n := fun c hc => by
  rcases Memory.mem_write hc with e | hc
  · omega
  · exact h c hc

/-- The same for a byte sequence that ends within the bound. -/
theorem Memory.bound_writeBytes {m : Memory} {a n : Nat} {bs : List Byte} (h : ∀ c ∈ m, c.1 < n)
    (ha : a + bs.length ≤ n) : ∀ c ∈ Memory.writeBytes m a bs, c.1 < n := by
  induction bs generalizing m a with
  | nil => exact h
  | cons b bs ih =>
    simp only [List.length_cons] at ha
    exact ih (Memory.bound_write h (by omega)) (by omega)

end Sys2Proof.Machine
end

