-- ==== Sys2Proof/Laws/Ops.lean ====
section
/-! SUPPORT. What the shared operations over the state do: bytes of the buffers, the marker search, messages and frames,
the decoder's index and bits, the register map. -/

namespace Sys2Proof.Machine

variable (s : State)

/-! ## Bytes -/

@[simp] theorem State.byte_codecDone (op : BitVec 4) (c : CodecCode) (sp : Space) (i : Nat) :
    (s.codecDone op c).byte sp i = s.byte sp i := by cases sp <;> rfl
@[simp] theorem State.byte_bsdDone (op : BitVec 4) (c : BsdCode) (sp : Space) (i : Nat) :
    (s.bsdDone op c).byte sp i = s.byte sp i := by cases sp <;> rfl
@[simp] theorem State.byte_record (v : ReadValue) (sp : Space) (i : Nat) :
    (s.record v).byte sp i = s.byte sp i := by cases sp <;> rfl
@[simp] theorem State.byte_withPending (ts : List Transaction) (sp : Space) (i : Nat) :
    (s.withPending ts).byte sp i = s.byte sp i := by cases sp <;> rfl

/-- Two states with the same buffer and the same draw of power-on bytes read the same there. -/
theorem State.byte_congr {s t : State} {sp : Space} (hm : t.memory sp = s.memory sp) (hr : t.resets = s.resets) (i : Nat) :
    t.byte sp i = s.byte sp i := by simp only [State.byte, hm, hr]

/-- One byte written by the host: the byte there, every other byte of every buffer as before. -/
theorem State.byte_writeByte (sp : Space) (i : Nat) (b : Byte) (sp' : Space) (j : Nat) :
    (s.writeByte sp i b).byte sp' j = if sp' = sp ∧ j = i then b else s.byte sp' j := by
  cases sp <;> cases sp' <;> simp [State.byte, State.writeByte, State.memory, Memory.read?_write] <;> split_ifs <;> simp_all

/-- A byte range read as a sequence is the map of the byte read over its indices. -/
theorem State.bytes_eq_map (sp : Space) (a n : Nat) :
    s.bytes sp a n = (List.range n).map (fun k => s.byte sp (a + k)) := by
  induction n generalizing a with
  | zero => rfl
  | succ n ih =>
    rw [List.range_succ_eq_map, List.map_cons, List.map_map, State.bytes, ih]
    simp only [Nat.add_zero, List.cons.injEq, true_and]
    exact List.map_congr_left fun k _ => by simp only [Function.comp]; congr 1; omega

@[simp] theorem State.bytes_length (sp : Space) (a n : Nat) : (s.bytes sp a n).length = n := by
  simp [State.bytes_eq_map]

theorem State.bytes_getElem? (sp : Space) (a n k : Nat) :
    (s.bytes sp a n)[k]? = if k < n then some (s.byte sp (a + k)) else none := by
  rw [State.bytes_eq_map, List.getElem?_map]
  split_ifs with h
  · simp [List.getElem?_range h]
  · simp [List.getElem?_eq_none (by simpa using h : (List.range n).length ≤ k)]

/-- Byte ranges that agree byte for byte are equal sequences. -/
theorem State.bytes_congr {s t : State} {sp sp' : Space} {a b n : Nat}
    (h : ∀ k < n, t.byte sp (a + k) = s.byte sp' (b + k)) : t.bytes sp a n = s.bytes sp' b n := by
  rw [State.bytes_eq_map, State.bytes_eq_map]
  exact List.map_congr_left fun k hk => h k (List.mem_range.mp hk)

/-- A byte range splits where one likes. -/
theorem State.bytes_append (sp : Space) (a m n : Nat) :
    s.bytes sp a (m + n) = s.bytes sp a m ++ s.bytes sp (a + m) n := by
  induction m generalizing a with
  | zero => simp [State.bytes]
  | succ m ih => rw [show m + 1 + n = (m + n) + 1 by omega, State.bytes, ih, State.bytes, List.cons_append]; congr 2; congr 1; omega

/-! ## The marker search -/

theorem State.markerAt_iff (i : Nat) :
    s.markerAt i = true ↔ s.byte .rxbuf i = 0x5A#8 ∧ s.byte .rxbuf (i + 1) = 0xA5#8 := by
  simp only [State.markerAt, Bool.and_eq_true, decide_eq_true_eq]; exact Iff.rfl

/-- `find(n) = i` says that `i` is the least index of a marker within the first `n` bytes (41_frame_sync.md R111). -/
theorem State.findMarker_eq_some {n i : Nat} :
    s.findMarker n = some i ↔ i + 1 < n ∧ s.markerAt i = true ∧ ∀ j < i, s.markerAt j = false := by
  simp only [State.findMarker, List.find?_range_eq_some, List.mem_range, Bool.not_eq_true']
  constructor
  · rintro ⟨h1, h2, h3⟩; exact ⟨by omega, h1, h3⟩
  · rintro ⟨h1, h2, h3⟩; exact ⟨h2, by omega, h3⟩

/-- `find(n) = none` says that there is no marker within the first `n` bytes. -/
theorem State.findMarker_eq_none {n : Nat} :
    s.findMarker n = none ↔ ∀ i, i + 1 < n → s.markerAt i = false := by
  simp only [State.findMarker, List.find?_eq_none, List.mem_range, Bool.not_eq_true]
  exact ⟨fun h i hi => h i (by omega), fun h i hi => h i (by omega)⟩

/-- The search looks at the first `n` bytes only (41_frame_sync.md R112). -/
theorem State.findMarker_congr {s t : State} {n : Nat} (h : ∀ i < n, t.byte .rxbuf i = s.byte .rxbuf i) :
    t.findMarker n = s.findMarker n := by
  have hm : ∀ i, i + 1 < n → t.markerAt i = s.markerAt i := fun i hi => by
    simp only [State.markerAt, h i (by omega), h (i + 1) hi]
  cases hs : s.findMarker n with
  | none =>
    rw [State.findMarker_eq_none] at hs ⊢
    exact fun i hi => by rw [hm i hi, hs i hi]
  | some i =>
    rw [State.findMarker_eq_some] at hs ⊢
    obtain ⟨h1, h2, h3⟩ := hs
    exact ⟨h1, by rw [hm i h1, h2], fun j hj => by rw [hm j (by omega), h3 j hj]⟩

/-! ## Messages and frames -/

@[simp] theorem headerBytes_length (m : Message) : (headerBytes m).length = 5 := rfl

theorem frameBytes_length (m : Message) : (frameBytes m).length = 9 + m.payload.length := by
  simp [frameBytes]; omega

@[simp] theorem State.message_payload_length : s.message.payload.length = s.msgLen.toNat := by simp [State.message]

/-- The span PARSE computes CK over is the span of the message it reads (30_encoding.md R82). -/
theorem State.frameSpan_eq (off : Nat) : s.frameSpan off = messageSpan (s.frameMessage off) := by
  rw [State.frameSpan, State.bytes_append]
  simp [State.bytes, messageSpan, headerBytes, State.frameMessage, State.frameLen, Config.hdrFields]

/-- The frame at `off`, byte for byte (30_encoding.md R80), given the marker there. -/
theorem State.frameBytes_frameMessage {off : Nat} (h : s.markerAt off = true) :
    frameBytes (s.frameMessage off) = s.bytes .rxbuf off (9 + (s.frameLen off).toNat) := by
  obtain ⟨h0, h1⟩ := s.markerAt_iff off |>.mp h
  have e : 9 + (s.frameLen off).toNat = 7 + ((s.frameLen off).toNat + 2) := by omega
  rw [e, State.bytes_append, State.bytes_append]
  simp [State.bytes, frameBytes, headerBytes, State.frameMessage, State.frameLen, Config.sync0, Config.sync1, h0, h1]
  congr 1; omega

/-- PAYLOAD after a message is stored: its payload, and the old bytes beyond (42_codec_parse.md R126). -/
theorem State.byte_storeMessage (m : Message) (sp : Space) (i : Nat) :
    (s.storeMessage m).byte sp i = if sp = .payload then (m.payload[i]?).getD (s.byte sp i) else s.byte sp i := by
  cases sp <;> simp [State.byte, State.memory, Memory.read?_writeBytes]
  by_cases h : i < m.payload.length <;> simp [h]

/-- The slot holds the message that was stored. -/
theorem State.message_storeMessage {m : Message} (h : m.payload.length = m.len.toNat) : (s.storeMessage m).message = m := by
  have hp : (s.storeMessage m).bytes .payload 0 m.len.toNat = m.payload := by
    apply List.ext_getElem?
    intro k
    rw [State.bytes_getElem?, ← h]
    split_ifs with hk
    · simp [State.byte_storeMessage, hk]
    · rw [List.getElem?_eq_none (by omega)]
  simp only [State.message, State.storeMessage_msgLen, hp]
  rfl

/-- The message of a slot depends on the slot's registers and the bytes below MSG_LEN only (10_state.md R32). -/
theorem State.message_codecDone (op : BitVec 4) (c : CodecCode) : (s.codecDone op c).message = s.message := by
  simp only [State.message, State.codecDone_msgLen]
  congr 1
  exact State.bytes_congr fun k _ => by simp

/-! ## Decoder -/

theorem nextIndex_val {k : Fin 9} (h : k.val ≠ 8) : (nextIndex k).val = k.val + 1 := by
  have : k.val < 8 := by omega
  simp [nextIndex, this]

/-- `v[k] <- b` writes bit `k` and no other (45_bitstream.md R170). -/
theorem setBit_getLsbD (v : Byte) {k : Nat} (hk : k < 8) (b : Bool) (j : Nat) :
    (setBit v k b).getLsbD j = if j = k then b else v.getLsbD j := by
  by_cases hj : j < 8
  · cases b <;> by_cases h : j = k
    · subst h; simp [setBit, hj]
    · have h' : ¬ j < k ∨ j < k := by omega
      simp only [setBit, Bool.false_eq_true, if_false, BitVec.getLsbD_and, BitVec.getLsbD_not, BitVec.getLsbD_shiftLeft, hj, h]
      rcases h' with h' | h'
      · simp [h', BitVec.getLsbD_one]; omega
      · simp [h']
    · subst h; simp [setBit, hj]
    · have h' : ¬ j < k ∨ j < k := by omega
      simp only [setBit, if_true, BitVec.getLsbD_or, BitVec.getLsbD_shiftLeft, hj, h]
      rcases h' with h' | h'
      · simp [h', BitVec.getLsbD_one]; omega
      · simp [h']
  · have h : j ≠ k := by omega
    simp [BitVec.getLsbD_of_ge _ _ (Nat.le_of_not_lt hj), h]

theorem State.ready_iff : s.ready = true ↔ s.bitIndex.val = 8 := by simp [State.ready]

/-! ## Registers -/

/-- The register map: a number selects the register that has it (10_state.md R22). -/
theorem regOfNumber_number (r : Reg) : regOfNumber r.number = some r := by cases r <;> rfl

theorem number_of_regOfNumber {n : Word} {r : Reg} (h : regOfNumber n = some r) : n = r.number := by
  simp only [regOfNumber] at h
  split at h <;> first | (cases h; done) | skip
  all_goals cases h; apply BitVec.eq_of_toNat_eq; simpa [Reg.number] using ‹n.toNat = _›

@[simp] theorem writeNumber_number (r : Reg) (w : Word) : writeNumber r.number w s = writeRegister r w s := by
  simp [writeNumber, regOfNumber_number]

/-- A command word written to its port is issued there. -/
@[simp] theorem writeNumber_port (p : Port) (w : Word) : writeNumber p.register.number w s = issue p w s := by
  cases p <;> rfl

/-- RX_CAP's bounds are all that is known of it (00_scope.md R7). -/
theorem rxCap_bounds : 9 ≤ Config.rxCap ∧ Config.rxCap ≤ 65535 := by
  have := Config.rxCapAboveNine.isLt
  simp only [Config.rxCap]; omega

end Sys2Proof.Machine
end

