-- ==== Sys2Proof/Laws/Decode.lean ====
section
/-! SUPPORT. The opcode map read as conditions on the word's number: what each mask tests, the decoder of each port in one
chain of comparisons, and the operand fields as quotients and remainders. -/

namespace Sys2Proof

open Machine

/-- The full mask tests the whole word. -/
theorem and_fullMask (w : Word) : w &&& 0xFFFFFFFF#32 = w := by
  have : (0xFFFFFFFF#32 : Word) = BitVec.allOnes 32 := by decide
  rw [this, BitVec.and_allOnes]

/-- The mask 0xF0000000 tests bits [31:28]. -/
theorem and_opMask_toNat (w : Word) : (w &&& 0xF0000000#32).toNat = w.toNat / 2 ^ 28 * 2 ^ 28 := by
  have e : w &&& 0xF0000000#32 = (w >>> 28) <<< 28 := by
    apply BitVec.eq_of_getLsbD_eq
    intro i hi
    have hm : (0xF0000000#32).getLsbD i = decide (28 ≤ i) := by
      revert hi; revert i; decide
    rw [BitVec.getLsbD_and, hm, BitVec.getLsbD_shiftLeft, BitVec.getLsbD_ushiftRight]
    by_cases h : 28 ≤ i
    · have : 28 + (i - 28) = i := by omega
      simp [h, hi, this]
    · simp [h]
  have hw := w.isLt
  rw [e]
  simp only [BitVec.toNat_shiftLeft, BitVec.toNat_ushiftRight, Nat.shiftLeft_eq, Nat.shiftRight_eq_div_pow]
  omega

/-- The mask 0xFFFFFFFE tests bits [31:1]. -/
theorem and_bitMask_toNat (w : Word) : (w &&& 0xFFFFFFFE#32).toNat = w.toNat / 2 * 2 := by
  have e : w &&& 0xFFFFFFFE#32 = (w >>> 1) <<< 1 := by
    apply BitVec.eq_of_getLsbD_eq
    intro i hi
    have hm : (0xFFFFFFFE#32).getLsbD i = decide (1 ≤ i) := by
      revert hi; revert i; decide
    rw [BitVec.getLsbD_and, hm, BitVec.getLsbD_shiftLeft, BitVec.getLsbD_ushiftRight]
    by_cases h : 1 ≤ i
    · have : 1 + (i - 1) = i := by omega
      have h0 : ¬ i = 0 := by omega
      simp [hi, this, h0, h]
    · simp [h]; omega
  have hw := w.isLt
  rw [e]
  simp only [BitVec.toNat_shiftLeft, BitVec.toNat_ushiftRight, Nat.shiftLeft_eq, Nat.shiftRight_eq_div_pow]
  omega

/-! ## Operand fields as numbers (30_encoding.md R71) -/

theorem opField_toNat (w : Word) : (opField w).toNat = w.toNat / 2 ^ 28 := by
  have := w.isLt
  simp only [opField, BitVec.extractLsb'_toNat, Nat.shiftRight_eq_div_pow]
  omega

theorem dstOperand_toNat (w : Word) : (dstOperand w).toNat = w.toNat / 2 ^ 20 % 256 := by
  simp [dstOperand, BitVec.extractLsb'_toNat, Nat.shiftRight_eq_div_pow]

theorem regOperand_toNat (w : Word) : (regOperand w).toNat = w.toNat / 2 ^ 12 % 256 := by
  simp [regOperand, BitVec.extractLsb'_toNat, Nat.shiftRight_eq_div_pow]

theorem rdlenOperand_toNat (w : Word) : (rdlenOperand w).toNat = w.toNat % 4096 := by
  simp [rdlenOperand, BitVec.extractLsb'_toNat]

theorem bitOperand_eq (w : Word) : bitOperand w = decide (w.toNat % 2 = 1) := by
  simp only [bitOperand, BitVec.getLsbD, Nat.testBit_zero]

/-- The word of a command as a number: its opcode above its operand bits (30_encoding.md R70). -/
theorem encode_toNat (i : Instr) : (encode i).toNat = i.opcode.toNat * 2 ^ 28 + i.operandBits.toNat := by
  rw [encode, BitVec.toNat_append, Nat.shiftLeft_eq, Nat.mul_comm]
  rw [← Nat.two_pow_add_eq_or_of_lt i.operandBits.isLt]

/-- The word of BUILD_READ as a number (44_builder.md R160). -/
theorem encode_buildRead_toNat (dst reg : Byte) (rdlen : BitVec 12) :
    (encode (.buildRead dst reg rdlen)).toNat =
      0x70000000 + dst.toNat * 2 ^ 20 + reg.toNat * 2 ^ 12 + rdlen.toNat := by
  have h : (Instr.buildRead dst reg rdlen).operandBits.toNat = dst.toNat * 2 ^ 20 + reg.toNat * 2 ^ 12 + rdlen.toNat := by
    have hr := rdlen.isLt
    have h1 : (dst ++ reg).toNat = dst.toNat * 2 ^ 8 + reg.toNat := by
      rw [BitVec.toNat_append, Nat.shiftLeft_eq, Nat.mul_comm, ← Nat.two_pow_add_eq_or_of_lt reg.isLt]
    have h2 : ((dst ++ reg) ++ rdlen).toNat = (dst ++ reg).toNat * 2 ^ 12 + rdlen.toNat := by
      rw [BitVec.toNat_append, Nat.shiftLeft_eq, Nat.mul_comm, ← Nat.two_pow_add_eq_or_of_lt rdlen.isLt]
    show ((dst ++ reg) ++ rdlen).toNat = _
    rw [h2, h1]; ring
  rw [encode_toNat, h]; simp [Instr.opcode]; omega

/-- Bits [27:0] of a one-bit command's word. -/
theorem bitCommand_operandBits_toNat (b : Bool) : ((0#27 ++ BitVec.ofBool b : BitVec 28)).toNat = b.toNat := by
  cases b <;> decide

/-! ## The decoder as a chain of comparisons (30_encoding.md R72 to R74) -/

theorem rowMatches_full (p q : Port) (w k : Word) (f : Word → Instr) :
    rowMatches p w ⟨q, k, 0xFFFFFFFF#32, f⟩ = (decide (q = p) && decide (w.toNat = k.toNat)) := by
  simp only [rowMatches, and_fullMask, ← BitVec.toNat_inj]

theorem rowMatches_op (p q : Port) (w k : Word) (f : Word → Instr) :
    rowMatches p w ⟨q, k, 0xF0000000#32, f⟩ = (decide (q = p) && decide (w.toNat / 2 ^ 28 * 2 ^ 28 = k.toNat)) := by
  simp only [rowMatches, ← and_opMask_toNat, ← BitVec.toNat_inj]

theorem rowMatches_bit (p q : Port) (w k : Word) (f : Word → Instr) :
    rowMatches p w ⟨q, k, 0xFFFFFFFE#32, f⟩ = (decide (q = p) && decide (w.toNat / 2 * 2 = k.toNat)) := by
  simp only [rowMatches, ← and_bitMask_toNat, ← BitVec.toNat_inj]

/-- The codec port's decoder, word by word (R74). -/
theorem decode_codec (w : Word) :
    decode .codec w =
      if w.toNat = 0x10000000 then .ok .findHeader
      else if w.toNat = 0x20000000 then .ok .ckCompute
      else if w.toNat = 0x30000000 then .ok .parse
      else if w.toNat = 0x40000000 then .ok .serlen
      else if w.toNat = 0x50000000 then .ok .setChecksum
      else if w.toNat = 0x60000000 then .ok .serialize
      else if w.toNat / 2 ^ 28 = 7 then .ok (.buildRead (dstOperand w) (regOperand w) (rdlenOperand w))
      else if w.toNat = 0x80000000 then .ok .release
      else .error (illegalReason .codec w) := by
  have h7 : (w.toNat / 2 ^ 28 * 2 ^ 28 = 0x70000000) ↔ w.toNat / 2 ^ 28 = 7 := by omega
  simp only [decode, opcodeMap, List.find?_cons, rowMatches_full, rowMatches_op, rowMatches_bit]
  simp only [reduceCtorEq, decide_true, decide_false, Bool.true_and, Bool.false_and, BitVec.toNat_ofNat, Nat.reducePow,
    Nat.reduceMod, List.find?_nil] at h7 ⊢
  simp only [h7]
  split_ifs <;> simp_all

/-- The decoder port's decoder, word by word (R74). -/
theorem decode_bsd (w : Word) :
    decode .bsd w =
      if w.toNat / 2 = 0x50000000 then .ok (.addBit (bitOperand w))
      else if w.toNat / 2 = 0x58000000 then .ok (.checkParity (bitOperand w))
      else if w.toNat = 0xC0000000 then .ok .bsdReset
      else .error (illegalReason .bsd w) := by
  have ha : (w.toNat / 2 * 2 = 0xA0000000) ↔ w.toNat / 2 = 0x50000000 := by omega
  have hb : (w.toNat / 2 * 2 = 0xB0000000) ↔ w.toNat / 2 = 0x58000000 := by omega
  simp only [decode, opcodeMap, List.find?_cons, rowMatches_full, rowMatches_op, rowMatches_bit]
  simp only [reduceCtorEq, decide_true, decide_false, Bool.true_and, Bool.false_and, BitVec.toNat_ofNat, Nat.reducePow,
    Nat.reduceMod, List.find?_nil] at ha hb ⊢
  simp only [ha, hb]
  split_ifs <;> simp_all

end Sys2Proof
end

