-- ==== Sys2Proof/Laws/Exec.lean ====
section
/-! SUPPORT. What each meaning can do, once: if it answers a next state, one of these cases holds. -/

namespace Sys2Proof.Machine

variable {s t : State}

/-- FIND_HEADER finds the least marker or none (41_frame_sync.md R110). -/
theorem execFindHeader_cases (h : execFindHeader s = .next t) :
    (∃ i, s.findMarker s.rxLen.toNat = some i ∧ t = { s with offset := BitVec.ofNat 16 i, codecOp := 0x1#4, codecCode := .ok }) ∨
    (s.findMarker s.rxLen.toNat = none ∧
      t = { s with offset := Config.notFound, codecOp := 0x1#4, codecCode := .notFound }) := by
  simp only [execFindHeader] at h
  split at h <;> cases h
  · exact .inl ⟨_, ‹_›, rfl⟩
  · exact .inr ⟨‹_›, rfl⟩

/-- The test PARSE fails at the marker `off`, if any, and the code it then reports (60_exceptions.md R194). -/
inductive ParseFailure (s : State) (off : Nat) : CodecCode → Prop where
  | truncated (h : s.rxLen.toNat - off < 9 + (s.frameLen off).toNat) : ParseFailure s off .truncated
  | checksumMismatch (h : 9 + (s.frameLen off).toNat ≤ s.rxLen.toNat - off)
      (hc : (s.frameMessage off).cks ≠ Config.ck (s.frameSpan off)) : ParseFailure s off .checksumMismatch
  | noResource (h : 9 + (s.frameLen off).toNat ≤ s.rxLen.toNat - off)
      (hc : (s.frameMessage off).cks = Config.ck (s.frameSpan off)) (ho : s.owned = true) : ParseFailure s off .noResource

/-- PARSE finds no marker, fails at the first one, or stores the frame there (42_codec_parse.md R120). -/
theorem execParse_cases (h : execParse s = .next t) :
    (s.findMarker s.rxLen.toNat = none ∧
      t = { s with offset := Config.notFound, codecOp := 0x3#4, codecCode := .noHeader }) ∨
    (∃ off, s.findMarker s.rxLen.toNat = some off ∧
      ((∃ c, ParseFailure s off c ∧ t = { s with offset := BitVec.ofNat 16 off, codecOp := 0x3#4, codecCode := c }) ∨
       (9 + (s.frameLen off).toNat ≤ s.rxLen.toNat - off ∧ (s.frameMessage off).cks = Config.ck (s.frameSpan off) ∧
        s.owned = false ∧
        t = { s with
          offset := BitVec.ofNat 16 off, codecOp := 0x3#4, codecCode := .ok,
          msgLen := s.frameLen off, msgSrc := s.byte .rxbuf (off + 3), msgDst := s.byte .rxbuf (off + 4),
          msgCmd := s.byte .rxbuf (off + 5), msgArg := s.byte .rxbuf (off + 6),
          payload := s.payload.writeBytes 0 (s.frameMessage off).payload, msgCks := (s.frameMessage off).cks,
          owned := true }))) := by
  simp only [execParse] at h
  split at h
  · cases h; exact .inl ⟨‹_›, rfl⟩
  · rename_i off hf
    refine .inr ⟨off, hf, ?_⟩
    have h9 : Config.minFrame = 9 := rfl
    split_ifs at h with h1 h2 h3 h4 <;> cases h
    · exact .inl ⟨_, .truncated (by omega), rfl⟩
    · exact .inl ⟨_, .truncated (by omega), rfl⟩
    · exact .inl ⟨_, .checksumMismatch (by omega) h3, rfl⟩
    · exact .inl ⟨_, .noResource (by omega) (not_not.mp h3) h4, rfl⟩
    · exact .inr ⟨by omega, not_not.mp h3, by simpa using h4, rfl⟩

/-- RELEASE frees an owned slot and reports a free one (42_codec_parse.md R130). -/
theorem execRelease_cases (h : execRelease s = .next t) :
    (s.owned = true ∧ t = { s with owned := false, codecOp := 0x8#4, codecCode := .ok }) ∨
    (s.owned = false ∧ t = { s with codecOp := 0x8#4, codecCode := .notOwned }) := by
  simp only [execRelease] at h
  split at h <;> cases h
  · exact .inl ⟨‹_›, rfl⟩
  · rename_i ho; exact .inr ⟨by simpa using ho, rfl⟩

/-- BUILD_READ rejects a read length above 255, then an owned slot, and else stores the request (44_builder.md R160). -/
theorem execBuildRead_cases {dst reg : Byte} {rdlen : BitVec 12} (h : execBuildRead dst reg rdlen s = .next t) :
    (255 < rdlen.toNat ∧ t = { s with codecOp := 0x7#4, codecCode := .invalidParam }) ∨
    (rdlen.toNat ≤ 255 ∧ s.owned = true ∧ t = { s with codecOp := 0x7#4, codecCode := .noResource }) ∨
    (rdlen.toNat ≤ 255 ∧ s.owned = false ∧
      t = { s with
        codecOp := 0x7#4, codecCode := .ok, msgLen := 1#8, msgSrc := Config.ownAddr, msgDst := dst, msgCmd := Config.cmdRead,
        msgArg := reg, payload := s.payload.write 0 (rdlenByte rdlen),
        msgCks := Config.ck [1#8, Config.ownAddr, dst, Config.cmdRead, reg, rdlenByte rdlen], owned := true }) := by
  simp only [execBuildRead] at h
  split_ifs at h with h1 h2 <;> simp only [Config.maxReadLen] at h1 <;> cases h
  · exact .inl ⟨h1, rfl⟩
  · exact .inr (.inl ⟨by omega, h2, rfl⟩)
  · exact .inr (.inr ⟨by omega, by simpa using h2, rfl⟩)

/-- ADD_BIT discards the bit when Ready and else stores it at BIT_INDEX (45_bitstream.md R170). -/
theorem execAddBit_cases {b : Bool} (h : execAddBit b s = .next t) :
    (s.bitIndex.val = 8 ∧ t = { s with bsdOp := 0xA#4, bsdCode := .alreadyComplete }) ∨
    (s.bitIndex.val < 8 ∧ (nextIndex s.bitIndex).val = s.bitIndex.val + 1 ∧
      t = { s with
        value := setBit s.value s.bitIndex.val b, bitIndex := nextIndex s.bitIndex, bsdOp := 0xA#4,
        bsdCode := if s.bitIndex.val + 1 = 8 then .complete else .accepted }) := by
  simp only [execAddBit, State.ready_iff] at h
  split_ifs at h with h1 h2
  · cases h; exact .inl ⟨h1, rfl⟩
  all_goals
    have hlt := s.bitIndex.isLt
    have hv := nextIndex_val h1
    simp only [hv] at h2
    cases h
    refine .inr ⟨by omega, hv, ?_⟩
    simp only [h2, if_true, if_false]; rfl

/-- CHECK_PARITY writes its status only (45_bitstream.md R174). -/
theorem execCheckParity_cases {b : Bool} (h : execCheckParity b s = .next t) :
    (s.bitIndex.val < 8 ∧ t = { s with bsdOp := 0xB#4, bsdCode := .notReady }) ∨
    (s.bitIndex.val = 8 ∧ b = parity s.value ∧ t = { s with bsdOp := 0xB#4, bsdCode := .matched }) ∨
    (s.bitIndex.val = 8 ∧ b ≠ parity s.value ∧ t = { s with bsdOp := 0xB#4, bsdCode := .mismatched }) := by
  have hlt := s.bitIndex.isLt
  simp only [execCheckParity, State.ready_iff] at h
  split_ifs at h with h1 h2 <;> cases h
  · exact .inr (.inl ⟨h1, h2, rfl⟩)
  · exact .inr (.inr ⟨h1, h2, rfl⟩)
  · exact .inl ⟨by omega, rfl⟩

end Sys2Proof.Machine
end

