-- ==== Sys2Proof/Laws/PerInstr.lean ====
section
/-! SUPPORT. Statements about every command as syntax, one lemma per constructor. -/

namespace Sys2Proof.Laws.EncodingRow

/-- The command's word matches a row of the opcode map for the command's port, and that row builds the command from it
(30_encoding.md R70, R71, R73). -/
def Statement (i : Instr) : Prop :=
  ∃ r ∈ opcodeMap, rowMatches i.port (encode i) r = true ∧ r.build (encode i) = i

theorem findHeader : Statement .findHeader :=
  ⟨_, List.mem_of_getElem? (i := 0) rfl, by decide, rfl⟩

theorem ckCompute : Statement .ckCompute :=
  ⟨_, List.mem_of_getElem? (i := 1) rfl, by decide, rfl⟩

theorem parse : Statement .parse :=
  ⟨_, List.mem_of_getElem? (i := 2) rfl, by decide, rfl⟩

theorem serlen : Statement .serlen :=
  ⟨_, List.mem_of_getElem? (i := 3) rfl, by decide, rfl⟩

theorem setChecksum : Statement .setChecksum :=
  ⟨_, List.mem_of_getElem? (i := 4) rfl, by decide, rfl⟩

theorem serialize : Statement .serialize :=
  ⟨_, List.mem_of_getElem? (i := 5) rfl, by decide, rfl⟩

theorem buildRead (dst reg : Byte) (rdlen : BitVec 12) : Statement (.buildRead dst reg rdlen) := by
  have hw := encode_buildRead_toNat dst reg rdlen
  have hd := dst.isLt
  have hr := reg.isLt
  have hl := rdlen.isLt
  refine ⟨_, List.mem_of_getElem? (i := 6) rfl, ?_, ?_⟩
  · rw [rowMatches_op]
    simp only [Instr.port, decide_true, Bool.true_and, decide_eq_true_eq, BitVec.toNat_ofNat]
    omega
  · have h1 : Machine.dstOperand (encode (.buildRead dst reg rdlen)) = dst :=
      BitVec.eq_of_toNat_eq (by rw [dstOperand_toNat]; omega)
    have h2 : Machine.regOperand (encode (.buildRead dst reg rdlen)) = reg :=
      BitVec.eq_of_toNat_eq (by rw [regOperand_toNat]; omega)
    have h3 : Machine.rdlenOperand (encode (.buildRead dst reg rdlen)) = rdlen :=
      BitVec.eq_of_toNat_eq (by rw [rdlenOperand_toNat]; omega)
    simp only [h1, h2, h3]

theorem release : Statement .release :=
  ⟨_, List.mem_of_getElem? (i := 7) rfl, by decide, rfl⟩

theorem addBit (b : Bool) : Statement (.addBit b) :=
  ⟨_, List.mem_of_getElem? (i := 8) rfl, by cases b <;> decide, by cases b <;> rfl⟩

theorem checkParity (b : Bool) : Statement (.checkParity b) :=
  ⟨_, List.mem_of_getElem? (i := 9) rfl, by cases b <;> decide, by cases b <;> rfl⟩

theorem bsdReset : Statement .bsdReset :=
  ⟨_, List.mem_of_getElem? (i := 10) rfl, by decide, rfl⟩

end Sys2Proof.Laws.EncodingRow
end

