-- ==== Sys2Proof/Laws/Transactions.lean ====
section
/-! SUPPORT. What a host transaction can do, once, and what one step is. -/

namespace Sys2Proof.Machine

variable {s t : State}

/-- A word delivered to a port runs the command it encodes, or reports an illegal word (30_encoding.md R72, R75). -/
theorem issue_cases {p : Port} {w : Word} {r : Result} (h : issue p w s = r) :
    (∃ i, decode p w = .ok i ∧ r = exec i s) ∨ (∃ e, decode p w = .error e ∧ r = .next (s.illegal p w)) := by
  simp only [issue] at h
  split at h
  · exact .inl ⟨_, ‹_›, h.symm⟩
  · exact .inr ⟨_, ‹_›, h.symm⟩

/-- RX_LEN is stored within RX_CAP or not at all (10_state.md R25). -/
theorem writeRxLen_cases (s : State) (w : Word) :
    ((lowHalf w).toNat ≤ Config.rxCap ∧ s.writeRxLen w = { s with rxLen := lowHalf w }) ∨ s.writeRxLen w = s := by
  simp only [State.writeRxLen]
  split
  · exact .inl ⟨‹_›, rfl⟩
  · exact .inr rfl

/-- A register write issues a word at a port, or stores one of the host's own registers, or is ignored (10_state.md R22). -/
theorem writeNumber_cases {n w : Word} {r : Result} (h : writeNumber n w s = r) :
    (∃ p : Port, n = p.register.number ∧ r = issue p w s) ∨
    (n ≠ Reg.codecCmd.number ∧ n ≠ Reg.bsdCmd.number ∧
      ∃ t, r = .next t ∧ (t.rxLen = s.rxLen ∨ t.rxLen.toNat ≤ Config.rxCap) ∧
        t = { s with
          rxLen := t.rxLen, msgLen := t.msgLen, msgSrc := t.msgSrc, msgDst := t.msgDst, msgCmd := t.msgCmd,
          msgArg := t.msgArg, msgCks := t.msgCks }) := by
  simp only [writeNumber] at h
  split at h
  · rename_i r' hr
    have hn := number_of_regOfNumber hr
    subst hn
    cases r' <;> simp only [writeRegister] at h
    case codecCmd => exact .inl ⟨.codec, rfl, h.symm⟩
    case bsdCmd => exact .inl ⟨.bsd, rfl, h.symm⟩
    case rxLen =>
      refine .inr ⟨by decide, by decide, _, h.symm, ?_⟩
      rcases writeRxLen_cases s w with ⟨h1, h2⟩ | h2 <;> rw [h2]
      · exact ⟨.inr h1, rfl⟩
      · exact ⟨.inl rfl, rfl⟩
    all_goals exact .inr ⟨by decide, by decide, _, h.symm, .inl rfl, rfl⟩
  · rename_i hr
    refine .inr ⟨?_, ?_, _, h.symm, .inl rfl, rfl⟩ <;> rintro rfl <;> cases hr

/-- What one transaction can do (20_memory.md R56). -/
theorem perform_cases {tr : Transaction} {r : Result} (h : perform tr s = r) :
    (∃ n, tr = .regRead n ∧ r = .next (s.record (.word (numberValue n s)))) ∨
    (∃ n w, tr = .regWrite n w ∧ r = writeNumber n w s) ∨
    (∃ sp i, tr = .bufRead sp i ∧
      ((i < Config.capacity sp ∧ r = .next (s.record (.byte (s.byte sp i)))) ∨
       (Config.capacity sp ≤ i ∧ r = .refused (.bufferIndex sp i)))) ∨
    (∃ sp i b, tr = .bufWrite sp i b ∧
      ((sp.hostWritable = true ∧ i < Config.capacity sp ∧ r = .next (s.writeByte sp i b)) ∨
       (sp.hostWritable = true ∧ Config.capacity sp ≤ i ∧ r = .refused (.bufferIndex sp i)) ∨
       (sp.hostWritable = false ∧ r = .refused (.txbufWrite i)))) ∨
    (tr = .reset ∧ r = .next s.hardReset) := by
  cases tr with
  | regRead n => exact .inl ⟨n, rfl, h.symm⟩
  | regWrite n w => exact .inr (.inl ⟨n, w, rfl, h.symm⟩)
  | bufRead sp i =>
    simp only [perform] at h
    refine .inr (.inr (.inl ⟨sp, i, rfl, ?_⟩))
    split_ifs at h with h1
    · exact .inl ⟨h1, h.symm⟩
    · exact .inr ⟨Nat.le_of_not_lt h1, h.symm⟩
  | bufWrite sp i b =>
    simp only [perform] at h
    refine .inr (.inr (.inr (.inl ⟨sp, i, b, rfl, ?_⟩)))
    split_ifs at h with h1 h2
    · exact .inl ⟨h1, h2, h.symm⟩
    · exact .inr (.inl ⟨h1, Nat.le_of_not_lt h2, h.symm⟩)
    · exact .inr (.inr ⟨by simpa using h1, h.symm⟩)
  | reset => exact .inr (.inr (.inr (.inr ⟨rfl, h.symm⟩)))

/-- A step with transactions to come performs the first of them (00_scope.md R11). -/
theorem step_cons {tr : Transaction} {rest : List Transaction} (h : s.pending = tr :: rest) :
    step s = perform tr (s.withPending rest) := by simp only [step, nextTransaction, h]

/-- A step with none to come changes nothing (log entry 1). -/
theorem step_nil (h : s.pending = []) : step s = .next s := by simp only [step, nextTransaction, h]

/-! ## Runs of the core -/

/-- A run of one step more, for any core. -/
theorem run_succ (M : Host.Core) (k : Nat) (s : M.State) :
    M.run (k + 1) s =
      match M.step s with
      | .next t => M.run k t
      | .fault r => .fault r
      | .refused r => .refused r := by rfl

theorem run_next (M : Host.Core) (k : Nat) (s : M.State) {t : M.State} (h : M.step s = .next t) :
    M.run (k + 1) s = M.run k t := by rw [run_succ, h]

theorem run_refused (M : Host.Core) (k : Nat) (s : M.State) {r : M.Refusal} (h : M.step s = .refused r) :
    M.run (k + 1) s = .refused r := by rw [run_succ, h]

/-- A step that answers a next state is followed by the rest of the run. -/
theorem core_run_next (k : Nat) {s t : State} (h : step s = .next t) :
    Host.Core.run core (k + 1) s = Host.Core.run core k t := run_next core k s h

/-- A refused step ends the run. -/
theorem core_run_refused (k : Nat) {s : State} {r : Refusal} (h : step s = .refused r) :
    Host.Core.run core (k + 1) s = .refused r := run_refused core k s h

end Sys2Proof.Machine
end

