-- ==== Sys2Proof/Tests/Slice0.lean ====
section
/-! SUPPORT. Tests: ill-formed terms refused, words written out from the opcode map decoded, one step of each command against
the vectors of 95_test_vectors.md, and for every statement with hypotheses the concrete values that meet them. -/

namespace Sys2Proof.Tests

open Sys2Proof.Machine

/-! ## Small states -/

/-- Bytes laid into a buffer from an index on. -/
def cellsFrom : Nat → List Byte → Memory
  | _, [] => []
  | i, b :: bs => (i, b) :: cellsFrom (i + 1) bs

/-- Right after reset, then these valid bytes in RXBUF (LOADRX). -/
def received (bs : List Byte) : State :=
  { State.reset with rxbuf := cellsFrom 0 bs, rxLen := BitVec.ofNat 16 bs.length }

/-- The decoder in the middle of a byte. -/
def decoding (v : Byte) (k : Fin 9) : State := { State.reset with value := v, bitIndex := k }

/-- Right after reset, with transactions to come. -/
def scheduled (ts : List Transaction) : State := State.reset.withPending ts

/-- The state after a transaction or command that is not refused. -/
def after : Result → State
  | .next s => s
  | .fault _ => State.reset
  | .refused _ => State.reset

/-- CK of the span of the frame F0 of 95_test_vectors.md 2.3. -/
def ckF0 : BytePair := Config.ck [0x00#8, 0x3E#8, 0x20#8, 0x01#8, 0x10#8]

/-- F0: nine bytes, an empty payload, the checksum right for every CK. -/
def frameF0 : List Byte := [0x5A#8, 0xA5#8, 0x00#8, 0x3E#8, 0x20#8, 0x01#8, 0x10#8, ckF0.1, ckF0.2]

/-- F0 with its first checksum byte wrong for every CK. -/
def frameBad : List Byte := [0x5A#8, 0xA5#8, 0x00#8, 0x3E#8, 0x20#8, 0x01#8, 0x10#8, ckF0.1 + 1#8, ckF0.2]

/-! ## Form (WellFormed.lean): each check refuses an ill-formed term and passes the boundary -/

/-- No index from 65535 on is in RXBUF, and every index below 9 is, whatever RX_CAP is. -/
theorem rxbuf_index : ¬ 65535 < Config.capacity .rxbuf ∧ 8 < Config.capacity .rxbuf :=
  ⟨Nat.not_lt.mpr rxCap_bounds.2, rxCap_bounds.1⟩

theorem test_wf_bufRead_rxbuf :
    Transaction.wellFormed (.bufRead .rxbuf 65535) = false ∧ Transaction.wellFormed (.bufRead .rxbuf 8) = true :=
  ⟨decide_eq_false rxbuf_index.1, decide_eq_true rxbuf_index.2⟩
theorem test_wf_bufWrite_rxbuf :
    Transaction.wellFormed (.bufWrite .rxbuf 65535 0#8) = false ∧
    Transaction.wellFormed (.bufWrite .rxbuf 8 0#8) = true :=
  ⟨decide_eq_false rxbuf_index.1, decide_eq_true rxbuf_index.2⟩
theorem test_wf_bufRead_txbuf :
    Transaction.wellFormed (.bufRead .txbuf 264) = false ∧ Transaction.wellFormed (.bufRead .txbuf 263) = true := by decide
theorem test_wf_bufRead_payload :
    Transaction.wellFormed (.bufRead .payload 255) = false ∧ Transaction.wellFormed (.bufRead .payload 254) = true := by
  decide
theorem test_wf_bufWrite_txbuf : Transaction.wellFormed (.bufWrite .txbuf 0 0#8) = false := by decide
theorem test_wf_bufWrite_payload :
    Transaction.wellFormed (.bufWrite .payload 255 0#8) = false ∧
    Transaction.wellFormed (.bufWrite .payload 254 0#8) = true := by decide
theorem test_wf_buildRead_line :
    ScriptLine.wellFormed (.buildRead 256 0 0) = false ∧ ScriptLine.wellFormed (.buildRead 0 256 0) = false ∧
    ScriptLine.wellFormed (.buildRead 0 0 4096) = false ∧ ScriptLine.wellFormed (.buildRead 255 255 4095) = true := by decide
theorem test_wf_bit_lines :
    ScriptLine.wellFormed (.addBit 2) = false ∧ ScriptLine.wellFormed (.checkParity 2) = false ∧
    ScriptLine.wellFormed (.feed [0, 1, 2]) = false ∧ ScriptLine.wellFormed (.feed [0, 1, 1]) = true := by decide
theorem test_wf_word_lines :
    ScriptLine.wellFormed (.wr .msgSrc (2 ^ 32)) = false ∧ ScriptLine.wellFormed (.cmdc (2 ^ 32)) = false ∧
    ScriptLine.wellFormed (.cmdb (2 ^ 32)) = false ∧ ScriptLine.wellFormed (.cmdb (2 ^ 32 - 1)) = true := by decide
theorem test_wf_buffer_lines :
    ScriptLine.wellFormed (.plWrite 255 0) = false ∧ ScriptLine.wellFormed (.plWrite 0 256) = false ∧
    ScriptLine.wellFormed (.txRead 264) = false ∧ ScriptLine.wellFormed (.plRead 255) = false ∧
    ScriptLine.wellFormed (.loadpl [256]) = false ∧ ScriptLine.wellFormed (.loadpl [255]) = true := by decide
theorem test_wf_rx_lines :
    ScriptLine.wellFormed (.rxWrite 0 256) = false ∧ ScriptLine.wellFormed (.rxRead 65535) = false ∧
    ScriptLine.wellFormed (.loadrx [256]) = false ∧ ScriptLine.wellFormed (.appendrx [256]) = false :=
  ⟨Bool.and_false _, decide_eq_false rxbuf_index.1, rfl, rfl⟩

theorem test_wf_long_lines :
    ScriptLine.wellFormed (.loadrx (List.replicate 65536 0)) = false ∧
    ScriptLine.wellFormed (.appendrx (List.replicate 65536 0)) = false ∧
    ScriptLine.wellFormed (.loadpl (List.replicate 256 0)) = false ∧ ScriptLine.wellFormed (.rxWrite 65535 0) = false := by
  have h : ¬ (List.replicate 65536 0).length ≤ Config.capacity .rxbuf := by
    rw [List.length_replicate]; exact Nat.not_le.mpr (Nat.lt_of_le_of_lt rxCap_bounds.2 (by decide))
  have h' : ¬ (List.replicate 256 0).length ≤ Config.capacity .payload := by rw [List.length_replicate]; decide
  refine ⟨?_, ?_, ?_, ?_⟩
  · rw [ScriptLine.wellFormed, decide_eq_false h, Bool.and_false]
  · rw [ScriptLine.wellFormed, decide_eq_false h, Bool.and_false]
  · rw [ScriptLine.wellFormed, decide_eq_false h', Bool.and_false]
  · rw [ScriptLine.wellFormed, decide_eq_false rxbuf_index.1, Bool.false_and]

/-! ## Decoding: words written out from the opcode map of 30_encoding.md R73, one and more for every command -/

theorem test_decode_findHeader : decode .codec 0b00010000000000000000000000000000#32 = .ok .findHeader := by rfl
theorem test_decode_ckCompute : decode .codec 0b00100000000000000000000000000000#32 = .ok .ckCompute := by rfl
theorem test_decode_parse : decode .codec 0b00110000000000000000000000000000#32 = .ok .parse := by rfl
theorem test_decode_serlen : decode .codec 0b01000000000000000000000000000000#32 = .ok .serlen := by rfl
theorem test_decode_setChecksum : decode .codec 0b01010000000000000000000000000000#32 = .ok .setChecksum := by rfl
theorem test_decode_serialize : decode .codec 0b01100000000000000000000000000000#32 = .ok .serialize := by rfl
/-- R160's example: `BUILD_READ 0x20, 0x34, 2` is 0x72034002. -/
theorem test_decode_buildRead :
    decode .codec 0b01110010000000110100000000000010#32 = .ok (.buildRead 0x20#8 0x34#8 2#12) := by rfl
theorem test_decode_buildRead_ends :
    decode .codec 0b01111000000100000001100000000001#32 = .ok (.buildRead 0x81#8 0x01#8 0x801#12) := by rfl
theorem test_decode_release : decode .codec 0b10000000000000000000000000000000#32 = .ok .release := by rfl
theorem test_decode_addBit :
    decode .bsd 0b10100000000000000000000000000000#32 = .ok (.addBit false) ∧
    decode .bsd 0b10100000000000000000000000000001#32 = .ok (.addBit true) := ⟨by rfl, by rfl⟩
theorem test_decode_checkParity :
    decode .bsd 0b10110000000000000000000000000000#32 = .ok (.checkParity false) ∧
    decode .bsd 0b10110000000000000000000000000001#32 = .ok (.checkParity true) := ⟨by rfl, by rfl⟩
theorem test_decode_bsdReset : decode .bsd 0b11000000000000000000000000000000#32 = .ok .bsdReset := by rfl

/-- Illegal words, each by the clause of R75 it falls under (vectors V70 to V77). -/
theorem test_decode_illegal :
    decode .codec 0x00000000#32 = .error .reservedOpcode ∧ decode .codec 0x90000000#32 = .error .reservedOpcode ∧
    decode .bsd 0xF0000000#32 = .error .reservedOpcode ∧ decode .codec 0x10000001#32 = .error .mustBeZero ∧
    decode .bsd 0xA0000002#32 = .error .mustBeZero ∧ decode .bsd 0xC0000001#32 = .error .mustBeZero ∧
    decode .codec 0xA0000000#32 = .error .otherPort ∧ decode .bsd 0x30000000#32 = .error .otherPort :=
  ⟨by rfl, by rfl, by rfl, by rfl, by rfl, by rfl, by rfl, by rfl⟩

/-- The words the encoder writes, beside those of R73. -/
theorem test_encode :
    encode .findHeader = 0x10000000#32 ∧ encode .ckCompute = 0x20000000#32 ∧ encode .parse = 0x30000000#32 ∧
    encode .serlen = 0x40000000#32 ∧ encode .setChecksum = 0x50000000#32 ∧ encode .serialize = 0x60000000#32 ∧
    encode (.buildRead 0x99#8 0xEE#8 1#12) = 0x799EE001#32 ∧ encode .release = 0x80000000#32 ∧
    encode (.addBit true) = 0xA0000001#32 ∧ encode (.checkParity true) = 0xB0000001#32 ∧
    encode .bsdReset = 0xC0000000#32 := by decide

theorem test_decodeTableWord :
    decodeTableWord 32 0x72034002 = some (.buildRead 0x20#8 0x34#8 2#12) ∧
    decodeTableWord 32 0xB0000001 = some (.checkParity true) ∧ decodeTableWord 32 0x90000000 = none :=
  ⟨by rfl, by rfl, by rfl⟩

/-- The placed word is the next step's command, on the port it belongs to. -/
theorem test_withFetchWord :
    step (State.reset.withFetchWord 32 0x40000000) = exec .serlen State.reset ∧
    step (State.reset.withFetchWord 32 0xA0000001) = exec (.addBit true) State.reset := ⟨by rfl, by rfl⟩

/-! ## One step of each command (95_test_vectors.md) -/

/-- V13. -/
theorem test_findHeader_found :
    let t := after (exec .findHeader (received [0x00#8, 0xFF#8, 0x5A#8, 0xA5#8, 0x00#8]))
    t.offset = 2#16 ∧ t.codecCode = .ok ∧ t.codecOp = 1#4 := by decide
/-- V19b: the second marker byte stands at RX_LEN. -/
theorem test_findHeader_beyond :
    let t := after (exec .findHeader { received [0x00#8, 0x5A#8, 0xA5#8] with rxLen := 2#16 })
    t.offset = 0xFFFF#16 ∧ t.codecCode = .notFound := by decide

/-- V2. -/
theorem test_ckCompute :
    (after (exec .ckCompute (received [0x01#8, 0x21#8, 0x20#8, 0x01#8, 0x34#8, 0x02#8]))).ckOut =
      Config.ck [0x01#8, 0x21#8, 0x20#8, 0x01#8, 0x34#8, 0x02#8] := by rfl

/-- V23: marker, then five bytes. -/
theorem test_parse_short :
    let t := after (exec .parse (received [0x00#8, 0x00#8, 0x5A#8, 0xA5#8, 0x05#8, 0x21#8, 0x20#8]))
    t.offset = 2#16 ∧ t.codecCode = .truncated ∧ t.owned = false := by decide
/-- V23b: the length byte asks for more than there is. -/
theorem test_parse_length :
    let t := after (exec .parse
      (received [0x5A#8, 0xA5#8, 0x04#8, 0x21#8, 0x20#8, 0x01#8, 0x34#8, 0x02#8, 0x86#8, 0xFF#8]))
    t.offset = 0#16 ∧ t.codecCode = .truncated ∧ t.msgLen = 0#8 := by decide

/-- V33 and V32: 9 for an empty payload, 264 for the longest. -/
theorem test_serlen :
    (after (exec .serlen State.reset)).serLen = 9#9 ∧
    (after (exec .serlen { State.reset with msgLen := 255#8 })).serLen = 264#9 := by decide

/-- V30, with the payload byte 0x02. -/
theorem test_setChecksum :
    (after (exec .setChecksum
      { State.reset with
        msgLen := 1#8, msgSrc := 0x21#8, msgDst := 0x20#8, msgCmd := 0x01#8, msgArg := 0x34#8,
        payload := [(0, 0x02#8)] })).msgCks =
      Config.ck [0x01#8, 0x21#8, 0x20#8, 0x01#8, 0x34#8, 0x02#8] := by rfl

/-- V31: the checksum field as it stands. -/
theorem test_serialize_reset :
    let t := after (exec .serialize State.reset)
    t.txbuf = cellsFrom 0 [0x5A#8, 0xA5#8, 0#8, 0#8, 0#8, 0#8, 0#8, 0#8, 0#8] ∧ t.txLen = 9#9 := by decide
/-- V34: the old checksum after a changed argument. -/
theorem test_serialize_stale :
    (after (exec .serialize
      { State.reset with
        msgLen := 1#8, msgSrc := 0x21#8, msgDst := 0x20#8, msgCmd := 0x01#8, msgArg := 0x35#8,
        payload := [(0, 0x02#8)], msgCks := (0x86#8, 0xFF#8) })).txbuf =
      cellsFrom 0 [0x5A#8, 0xA5#8, 0x01#8, 0x21#8, 0x20#8, 0x01#8, 0x35#8, 0x02#8, 0x86#8, 0xFF#8] := by decide

/-- V51 and V56: the parameter test comes first. -/
theorem test_buildRead_param :
    (after (exec (.buildRead 0x20#8 0x34#8 256#12) State.reset)).codecCode = .invalidParam ∧
    (after (exec (.buildRead 0x20#8 0x34#8 256#12) { State.reset with owned := true })).codecCode = .invalidParam := by decide
/-- V54. -/
theorem test_buildRead_stores :
    let t := after (exec (.buildRead 0x22#8 0x3B#8 0#12) State.reset)
    t.msgDst = 0x22#8 ∧ t.msgArg = 0x3B#8 ∧ t.msgLen = 1#8 ∧ t.payload = [(0, 0x00#8)] ∧ t.owned = true ∧
    t.msgCks = Config.ck [0x01#8, Config.ownAddr, 0x22#8, Config.cmdRead, 0x3B#8, 0x00#8] :=
  ⟨by rfl, by rfl, by rfl, by rfl, by rfl, by rfl⟩

/-- V40. -/
theorem test_release_free : (after (exec .release State.reset)).codecCode = .notOwned := by decide
/-- V41. -/
theorem test_release_owned :
    let t := after (exec .release { State.reset with owned := true, msgArg := 0x34#8 })
    t.owned = false ∧ t.codecCode = .ok ∧ t.msgArg = 0x34#8 := by decide

/-- S1, step 8. -/
theorem test_addBit_eighth :
    let t := after (exec (.addBit true) (decoding 0x5E#8 7))
    t.value = 0xDE#8 ∧ t.bitIndex = 8 ∧ t.bsdCode = .complete := by decide
/-- S1, step 9. -/
theorem test_addBit_ninth :
    let t := after (exec (.addBit true) (decoding 0xDE#8 8))
    t.value = 0xDE#8 ∧ t.bitIndex = 8 ∧ t.bsdCode = .alreadyComplete := by decide

/-- V65 and V63. -/
theorem test_checkParity_ready :
    (after (exec (.checkParity false) (decoding 0xDE#8 8))).bsdCode = .matched ∧
    (after (exec (.checkParity true) (decoding 0xDE#8 8))).bsdCode = .mismatched ∧
    (after (exec (.checkParity true) (decoding 0x01#8 8))).bsdCode = .matched := by decide
/-- V67. -/
theorem test_checkParity_early :
    let t := after (exec (.checkParity true) (decoding 0x07#8 3))
    t.bsdCode = .notReady ∧ t.value = 0x07#8 := by decide

/-- S1, step 10. -/
theorem test_bsdReset :
    let t := after (exec .bsdReset (decoding 0xDE#8 8))
    t.value = 0#8 ∧ t.bitIndex = 0 ∧ t.bsdCode = .ok := by decide

/-- V6A, V6B and V78: register reads. -/
theorem test_register_reads :
    numberValue 0x12#32 (decoding 0xDE#8 8) = 0x000018DE#32 ∧ numberValue 0x12#32 (decoding 0x07#8 3) = 0x00000307#32 ∧
    numberValue 0x07#32 State.reset = 0#32 ∧ numberValue 0x13#32 State.reset = 0#32 ∧
    numberValue 0x03#32 State.reset = 0x0000FFFF#32 := by decide
/-- V79 and V7B: register writes. -/
theorem test_register_writes :
    (after (perform (.regWrite 0x03#32 5#32) State.reset)).offset = 0xFFFF#16 ∧
    (after (perform (.regWrite 0x0E#32 1#32) State.reset)).owned = false ∧
    (after (perform (.regWrite 0x12#32 0x18FF#32) State.reset)).value = 0#8 ∧
    (after (perform (.regWrite 0x08#32 0x1FF#32) State.reset)).msgLen = 0xFF#8 := by decide

/-! ## Hypotheses met: for every statement that has any, concrete values of all of them, clause by clause -/

/-- F0 received whole, and with a wrong checksum byte. -/
def goodFrame : State := received frameF0
def badFrame : State := received frameBad

theorem marker_at_zero (bs : List Byte) (n : BitVec 16) (h : 1 < n.toNat) :
    FirstMarker { received (0x5A#8 :: 0xA5#8 :: bs) with rxLen := n } 0 :=
  ⟨h, ⟨rfl, rfl⟩, fun _ hj => absurd hj (Nat.not_lt_zero _)⟩

theorem goodFrame_marker : FirstMarker goodFrame 0 := marker_at_zero _ 9#16 (by decide)
theorem badFrame_marker : FirstMarker badFrame 0 := marker_at_zero _ 9#16 (by decide)
theorem goodFrame_fits : FrameFits goodFrame 0 := show 0 + 9 + 0 ≤ 9 by decide
theorem badFrame_fits : FrameFits badFrame 0 := show 0 + 9 + 0 ≤ 9 by decide
theorem goodFrame_checksum : storedPair goodFrame 0 = computedPair goodFrame 0 := by rfl
theorem add_one_ne (b : Byte) : b + 1#8 ≠ b := by simp
theorem badFrame_checksum : storedPair badFrame 0 ≠ computedPair badFrame 0 :=
  fun h => add_one_ne ckF0.1 (congrArg Prod.fst (show (ckF0.1 + 1#8, ckF0.2) = ckF0 from h))
theorem noMarker_reset : NoMarker State.reset := fun i hi => absurd hi (Nat.not_lt_zero (i + 1))
theorem noMarker_one (b : Byte) : NoMarker (received [b]) :=
  fun i hi => absurd (Nat.lt_of_succ_lt_succ hi) (Nat.not_lt_zero i)

/-- A valid nine-byte frame at the start of RXBUF is parsed into a free slot, and turned away from an owned one. -/
theorem parse_nine {s : State} (hr : s.rxLen = 9#16) (hf : s.findMarker 9 = some 0) (hl : s.frameLen 0 = 0#8)
    (hc : (s.frameMessage 0).cks = Config.ck (s.frameSpan 0)) :
    (s.owned = true → exec .parse s = .next ({ s with offset := 0#16 }.codecDone 0x3#4 .noResource)) ∧
    (s.owned = false →
      exec .parse s = .next ((State.storeMessage { s with offset := 0#16 } (s.frameMessage 0)).codecDone 0x3#4 .ok)) := by
  simp only [exec, execParse, hr, show (9#16).toNat = 9 from rfl, hf, hl]
  rw [if_neg (show ¬ 9 - 0 < Config.minFrame by decide),
    if_neg (show ¬ 9 - 0 < Config.minFrame + (0#8).toNat by decide), if_neg (not_not.mpr hc)]
  exact ⟨fun h => if_pos h, fun h => if_neg (by rw [h]; decide)⟩

theorem goodFrame_parses :
    exec .parse goodFrame =
      .next ((State.storeMessage { goodFrame with offset := 0#16 } (goodFrame.frameMessage 0)).codecDone 0x3#4 .ok) :=
  (parse_nine (by rfl) (by rfl) (by rfl) (by rfl)).2 (by rfl)

/-- F0 received while the slot is owned. -/
def ownedFrame : State := { goodFrame with owned := true }

theorem ownedFrame_turned_away :
    exec .parse ownedFrame = .next ({ ownedFrame with offset := 0#16 }.codecDone 0x3#4 .noResource) :=
  (parse_nine (by rfl) (by rfl) (by rfl) (by rfl)).1 (by rfl)

/-! ### Encoding -/

theorem witness_EncodedCommandDecodesToItself : Port.bsd ≠ Instr.port .parse ∧ Port.codec ≠ Instr.port (.addBit true) := by
  decide
theorem witness_LegalWordEncodesItsCommand :
    decode .codec 0x7FFFFFFF#32 = .ok (.buildRead 0xFF#8 0xFF#8 0xFFF#12) ∧
    decode .codec 0x70000000#32 = .ok (.buildRead 0#8 0#8 0#12) := ⟨by rfl, by rfl⟩
/-- Both sides of each equivalence, at the ends of the range: legal and illegal words on each port. -/
theorem witness_LegalWordsAreExactlyTheListed :
    (∃ i, decode .codec 0x70000000#32 = .ok i) ∧ (∃ i, decode .codec 0x7FFFFFFF#32 = .ok i) ∧
    (∃ e, decode .codec 0x6FFFFFFF#32 = .error e) ∧ (∃ e, decode .codec 0x80000001#32 = .error e) ∧
    (∃ i, decode .bsd 0xA0000001#32 = .ok i) ∧ (∃ e, decode .bsd 0xC0000001#32 = .error e) :=
  ⟨⟨_, rfl⟩, ⟨_, rfl⟩, ⟨_, rfl⟩, ⟨_, rfl⟩, ⟨_, rfl⟩, ⟨_, rfl⟩⟩

/-! ### Steps and transactions -/

theorem witness_StepRunsDecodedCommand :
    (scheduled [.regWrite 0x10#32 0xB0000001#32, .reset]).pending =
      .regWrite Port.bsd.register.number 0xB0000001#32 :: [.reset] ∧
    decode .bsd 0xB0000001#32 = .ok (.checkParity true) := ⟨by rfl, by rfl⟩
theorem witness_IdleBlockStaysAsItIs : State.reset.pending = [] := by rfl
/-- One word at an end of each kind of illegal word. -/
theorem witness_IllegalWordWritesStatusOnly :
    (0xFFFFFFFF#32).toNat / 2 ^ 28 ∈ [0x0, 0x9, 0xD, 0xE, 0xF] ∧
    ((0x1FFFFFFF#32).toNat / 2 ^ 28 ∈ [0x1, 0x2, 0x3, 0x4, 0x5, 0x6, 0x8] ∧ (0x1FFFFFFF#32).toNat % 2 ^ 28 ≠ 0) ∧
    ((0xA0000002#32).toNat / 2 ^ 28 ∈ [0xA, 0xB] ∧ (0xA0000002#32).toNat % 2 ^ 28 / 2 ≠ 0) ∧
    ((0xC0000001#32).toNat / 2 ^ 28 = 0xC ∧ (0xC0000001#32).toNat % 2 ^ 28 ≠ 0) ∧
    (0x1 ≤ (0x10000000#32).toNat / 2 ^ 28 ∧ (0x8FFFFFFF#32).toNat / 2 ^ 28 ≤ 0x8) ∧
    (0xA ≤ (0xA0000000#32).toNat / 2 ^ 28 ∧ (0xCFFFFFFF#32).toNat / 2 ^ 28 ≤ 0xC) := by decide
theorem witness_RegisterReadReturnsFields :
    (scheduled [.regRead 0x12#32]).pending = .regRead 0x12#32 :: [] ∧
    (scheduled [.regRead 0x13#32]).pending = .regRead 0x13#32 :: [] ∧
    (scheduled [.regRead 0xFFFFFFFF#32]).pending = .regRead 0xFFFFFFFF#32 :: [] := ⟨by rfl, by rfl, by rfl⟩
/-- A header register, RX_LEN at RX_CAP, RX_LEN one above it (where 16 bits hold that), and a reserved number. -/
theorem witness_RegisterWriteStoresFieldOrNothing :
    (scheduled [.regWrite 0x0D#32 0xFFFFFFFF#32]).pending = .regWrite 0x0D#32 0xFFFFFFFF#32 :: [] ∧
    (0x0D#32).toNat ≠ 0x00 ∧ (0x0D#32).toNat ≠ 0x10 ∧ (0x02#32).toNat ≠ 0x00 ∧ (0x02#32).toNat ≠ 0x10 ∧
    (0x13#32).toNat ≠ 0x00 ∧ (0x13#32).toNat ≠ 0x10 ∧
    (BitVec.ofNat 32 Config.rxCap).toNat % 2 ^ 16 ≤ Config.rxCap ∧
    (Config.rxCap < 65535 → Config.rxCap < (BitVec.ofNat 32 (Config.rxCap + 1)).toNat % 2 ^ 16) := by
  refine ⟨rfl, by decide, by decide, by decide, by decide, by decide, by decide, ?_, fun h => ?_⟩
  · rw [BitVec.toNat_ofNat]; have := rxCap_bounds; omega
  · rw [BitVec.toNat_ofNat]; omega
/-- RX_LEN within RX_CAP before a step that writes it. -/
theorem witness_RxLenStaysWithinCapacity :
    (received [0x5A#8]).rxLen.toNat ≤ Config.rxCap ∧
    (∃ t, exec .serlen (received [0x5A#8]) = .next t) ∧
    ∃ t, step ((received [0x5A#8]).withPending [.regWrite 0x02#32 9#32]) = .next t :=
  ⟨Nat.le_trans (by decide) rxCap_bounds.1, ⟨_, rfl⟩, ⟨_, rfl⟩⟩
theorem witness_HostBufferAccess :
    Space.rxbuf ≠ .txbuf ∧ 8 < Config.capacity .rxbuf ∧ Space.payload ≠ .txbuf ∧ 254 < Config.capacity .payload ∧
    263 < Config.capacity .txbuf := ⟨by decide, rxbuf_index.2, by decide, by decide, by decide⟩
/-- Both outcomes, at each buffer's end. -/
theorem witness_RefusedExactlyWhenIllFormed :
    (∃ t, perform (.bufRead .payload 254) State.reset = .next t) ∧
    perform (.bufRead .payload 255) State.reset = .refused (.bufferIndex .payload 255) ∧
    perform (.bufRead .txbuf 264) State.reset = .refused (.bufferIndex .txbuf 264) ∧
    perform (.bufWrite .txbuf 263 0#8) State.reset = .refused (.txbufWrite 263) ∧
    perform (.bufRead .rxbuf Config.rxCap) State.reset = .refused (.bufferIndex .rxbuf Config.rxCap) :=
  ⟨⟨_, rfl⟩, by rfl, by rfl, by rfl, if_neg (Nat.lt_irrefl _)⟩
theorem witness_ReadsHaveNoSideEffect :
    Transaction.isRead (.regRead 0x12#32) = true ∧ Transaction.wellFormed (.regRead 0x12#32) = true ∧
    Transaction.isRead (.bufRead .txbuf 263) = true ∧ Transaction.wellFormed (.bufRead .txbuf 263) = true := by decide
theorem witness_ResetStateValues : ∃ r, perform .reset goodFrame = .next r := ⟨_, rfl⟩
theorem witness_ResetTransactionFromAnyState :
    (goodFrame.withPending [.reset]).pending = .reset :: [] := by rfl

/-! ### Frame Synchronizer and Checksum Utility -/

/-- A marker that ends at RX_LEN, behind a lone 0x5A; a lone 0x5A at the end; no byte at all. -/
theorem witness_FindHeaderReportsFirstMarker :
    FirstMarker (received [0x5A#8, 0x5A#8, 0xA5#8]) 1 ∧ NoMarker (received [0x5A#8]) ∧ NoMarker State.reset := by
  refine ⟨⟨by decide, ⟨rfl, rfl⟩, fun j hj h => ?_⟩, noMarker_one _, noMarker_reset⟩
  have : j = 0 := by omega
  subst this
  exact absurd h.2 (by decide)
theorem witness_SplitMarkerIsFoundOnRetry :
    NoMarker (received [0x5A#8]) ∧ 1 ≤ (received [0x5A#8]).rxLen.toNat ∧
    (received [0x5A#8]).rxLen.toNat + 1 ≤ Config.rxCap ∧
    (received [0x5A#8]).byte .rxbuf ((received [0x5A#8]).rxLen.toNat - 1) = 0x5A#8 :=
  ⟨noMarker_one _, by decide, Nat.le_trans (by decide) rxCap_bounds.1, by rfl⟩
/-- OFFSET changes in a search; both results of a search. -/
theorem witness_OffsetIsWrittenBySearchesOnly :
    (∃ t, step (goodFrame.withPending [.regWrite 0x00#32 0x10000000#32]) = .next t ∧ t.offset ≠ goodFrame.offset) ∧
    (∃ t, exec .findHeader State.reset = .next t) ∧ (∃ t, exec .parse goodFrame = .next t) :=
  ⟨⟨_, rfl, by decide⟩, ⟨_, rfl⟩, ⟨_, goodFrame_parses⟩⟩
/-- Two states with the same valid byte and different bytes beyond. -/
theorem witness_CkComputeIsDeterministic :
    let s := { received [0x01#8, 0x02#8] with rxLen := 1#16 }
    let s' := { received [0x01#8, 0x03#8] with rxLen := 1#16 }
    s'.rxLen = s.rxLen ∧ (∀ i < s.rxLen.toNat, s'.byte .rxbuf i = s.byte .rxbuf i) ∧
    (∃ t, exec .ckCompute s = .next t) ∧ ∃ t, exec .ckCompute s' = .next t := by
  refine ⟨rfl, fun i hi => ?_, ⟨_, rfl⟩, ⟨_, rfl⟩⟩
  have : i = 0 := Nat.lt_one_iff.mp hi
  subst this; rfl

/-! ### Message Codec -/

theorem witness_ParseReportsMarkerOffset : NoMarker State.reset ∧ FirstMarker goodFrame 0 :=
  ⟨noMarker_reset, goodFrame_marker⟩
/-- Eight bytes of nine; nine of ten; nine of nine. -/
theorem witness_ParseTruncatedWhenFrameIncomplete :
    (FirstMarker { goodFrame with rxLen := 8#16 } 0 ∧ (8#16).toNat - 0 < 9) ∧
    (FirstMarker { received (0x5A#8 :: 0xA5#8 :: [0x01#8]) with rxLen := 9#16 } 0 ∧ ¬ (9#16).toNat - 0 < 9 ∧
      (9#16).toNat - 0 < 9 + payloadLength { received (0x5A#8 :: 0xA5#8 :: [0x01#8]) with rxLen := 9#16 } 0) ∧
    (FirstMarker goodFrame 0 ∧ 9 + payloadLength goodFrame 0 ≤ goodFrame.rxLen.toNat - 0) :=
  ⟨⟨marker_at_zero _ _ (by decide), by decide⟩, ⟨marker_at_zero _ _ (by decide), by decide, by decide⟩,
    goodFrame_marker, show 9 + 0 ≤ 9 - 0 by decide⟩
theorem witness_ParseComparesChecksum :
    (FirstMarker badFrame 0 ∧ FrameFits badFrame 0 ∧ storedPair badFrame 0 ≠ computedPair badFrame 0) ∧
    (FirstMarker goodFrame 0 ∧ FrameFits goodFrame 0 ∧ storedPair goodFrame 0 = computedPair goodFrame 0) :=
  ⟨⟨badFrame_marker, badFrame_fits, badFrame_checksum⟩, goodFrame_marker, goodFrame_fits, goodFrame_checksum⟩
theorem witness_ParseNeedsFreeSlot :
    (FirstMarker ownedFrame 0 ∧ FrameFits ownedFrame 0 ∧ storedPair ownedFrame 0 = computedPair ownedFrame 0 ∧
      ownedFrame.owned = true) ∧
    ∃ t, exec .parse ownedFrame = .next t ∧ t.codecCode = .noResource :=
  ⟨⟨goodFrame_marker, goodFrame_fits, goodFrame_checksum, rfl⟩, _, ownedFrame_turned_away, rfl⟩
theorem witness_ParseStoresValidFrame :
    FirstMarker goodFrame 0 ∧ FrameFits goodFrame 0 ∧ storedPair goodFrame 0 = computedPair goodFrame 0 ∧
    goodFrame.owned = false := ⟨goodFrame_marker, goodFrame_fits, goodFrame_checksum, rfl⟩
theorem witness_ParseFailureLeavesSlot : ∃ t, exec .parse State.reset = .next t ∧ t.codecCode ≠ .ok :=
  ⟨_, rfl, by decide⟩
theorem witness_SuccessLeavesValidOwnedMessage :
    (∃ t, exec .parse goodFrame = .next t ∧ t.codecCode = .ok) ∧
    ∃ t, exec (.buildRead 0x20#8 0x34#8 255#12) State.reset = .next t ∧ t.codecCode = .ok :=
  ⟨⟨_, goodFrame_parses, rfl⟩, ⟨_, rfl, rfl⟩⟩
/-- Another byte at index RX_LEN. -/
theorem witness_BytesBeyondRxLenNeverMatter :
    let s := { received [0x5A#8, 0xA5#8] with rxLen := 1#16 }
    ∀ k < s.rxLen.toNat, State.byte { s with rxbuf := cellsFrom 0 [0x5A#8, 0x00#8] } .rxbuf k = s.byte .rxbuf k := by
  intro s k hk
  have : k = 0 := Nat.lt_one_iff.mp hk
  subst this; rfl
/-- A frame with no payload, cut after eight bytes and before the first. -/
theorem witness_TruncatedFrameIsNeverAccepted :
    let m : Message := ⟨0#8, 0x3E#8, 0x20#8, 0x01#8, 0x10#8, [], ckF0⟩
    let s := { goodFrame with rxLen := 8#16 }
    m.payload.length = m.len.toNat ∧
    (s.rxLen.toNat < 9 + m.len.toNat ∧ byteRange s .rxbuf 0 s.rxLen.toNat = (frameBytes m).take s.rxLen.toNat) ∧
    (State.reset.rxLen.toNat < 9 + m.len.toNat ∧
      byteRange State.reset .rxbuf 0 State.reset.rxLen.toNat = (frameBytes m).take State.reset.rxLen.toNat) :=
  ⟨by rfl, ⟨by decide, by rfl⟩, by decide, by rfl⟩
/-- Either checksum byte. -/
theorem witness_ChangedChecksumByteIsRejected :
    FirstMarker goodFrame 0 ∧ FrameFits goodFrame 0 ∧ storedPair goodFrame 0 = computedPair goodFrame 0 ∧
    goodFrame.rxLen.toNat ≤ Config.rxCap ∧
    (7 = 0 + 7 + payloadLength goodFrame 0 ∧ ckF0.1 + 1#8 ≠ goodFrame.byte .rxbuf 7) ∧
    (8 = 0 + 8 + payloadLength goodFrame 0 ∧ ckF0.2 + 1#8 ≠ goodFrame.byte .rxbuf 8) :=
  ⟨goodFrame_marker, goodFrame_fits, goodFrame_checksum, rxCap_bounds.1, ⟨by rfl, add_one_ne _⟩, by rfl, add_one_ne _⟩
theorem witness_SerializedMessageParsesBack :
    9 + State.reset.msgLen.toNat ≤ Config.rxCap ∧ 9 + ownedFrame.msgLen.toNat ≤ Config.rxCap ∧ ownedFrame.owned = true :=
  ⟨rxCap_bounds.1, rxCap_bounds.1, rfl⟩
theorem witness_ReleaseFreesOwnedSlot :
    ownedFrame.owned = true ∧ State.reset.owned = false ∧
    (∃ t, perform (.regWrite 0x00#32 0x80000000#32) ownedFrame = .next t ∧ t.owned = false) ∧
    ∃ t, perform .reset ownedFrame = .next t ∧ t.owned = false := ⟨rfl, rfl, ⟨_, rfl, rfl⟩, ⟨_, rfl, rfl⟩⟩
/-- A write to MSG_LEN after SERLEN (V33). -/
theorem witness_SerlenIsNinePlusLength :
    (∃ t, perform (.regWrite 0x08#32 5#32) State.reset = .next t) ∧
    Transaction.regWrite 0x08#32 5#32 ≠ .regWrite 0x00#32 0x40000000#32 ∧ Transaction.regWrite 0x08#32 5#32 ≠ .reset :=
  ⟨⟨_, rfl⟩, by decide, by decide⟩
/-- The ends of the payload's index range for the longest message, and the index after its frame. -/
theorem witness_SerializeWritesFrame :
    let s : State := { State.reset with msgLen := 255#8 }
    0 < s.msgLen.toNat ∧ 254 < s.msgLen.toNat ∧ 9 + s.msgLen.toNat ≤ 264 := by decide

/-! ### Builder and Bit-Stream Decoder -/

theorem witness_BuildReadStoresRequest :
    255 < (256#12).toNat ∧ ((255#12).toNat ≤ 255 ∧ ownedFrame.owned = true) ∧
    ((255#12).toNat ≤ 255 ∧ State.reset.owned = false) ∧ 255 < (4095#12).toNat := by decide
theorem witness_AddBitFillsNextPosition :
    (decoding 0xDE#8 8).bitIndex.val = 8 ∧ (decoding 0x5E#8 7).bitIndex.val < 8 ∧ State.reset.bitIndex.val < 8 := by decide
theorem witness_BitsAssembleLeastSignificantFirst :
    (Transaction.reset = .reset ∨ Transaction.reset = .regWrite 0x10#32 0xC0000000#32) ∧
    (Transaction.regWrite 0x10#32 0xC0000000#32 = .reset ∨
      Transaction.regWrite 0x10#32 0xC0000000#32 = .regWrite 0x10#32 0xC0000000#32) := by decide
theorem witness_CheckParityComparesWhenReady :
    (decoding 0x07#8 7).bitIndex.val < 8 ∧ (decoding 0xDE#8 8).bitIndex.val = 8 := by decide

/-! ### The whole machine -/

/-- The last codec register and the first and last decoder registers; a command on each side; reads on both. -/
theorem witness_CodecAndDecoderCommute :
    Transaction.onCodec (.regWrite 0x00#32 0x30000000#32) = true ∧ Transaction.onCodec (.regRead 0x0F#32) = true ∧
    Transaction.onCodec (.bufRead .txbuf 263) = true ∧
    Transaction.onDecoder (.regWrite 0x10#32 0xA0000001#32) = true ∧ Transaction.onDecoder (.regRead 0x12#32) = true ∧
    Transaction.wellFormed (.regWrite 0x00#32 0x30000000#32) = true ∧ Transaction.wellFormed (.bufRead .txbuf 263) = true ∧
    (Transaction.isRead (.regWrite 0x00#32 0x30000000#32) = false ∨ Transaction.isRead (.regRead 0x12#32) = false) := by
  decide
/-- A command of each unit, and two states alike in the decoder only. -/
theorem witness_UnitsShareNoState :
    (Instr.port .parse = .codec ∧ ∃ t, exec .parse goodFrame = .next t) ∧
    (Instr.port (.addBit true) = .bsd ∧ (∃ t, exec (.addBit true) State.reset = .next t) ∧
      goodFrame.value = State.reset.value ∧ goodFrame.bitIndex = State.reset.bitIndex ∧
      ∃ t, exec (.addBit true) goodFrame = .next t) :=
  ⟨⟨rfl, _, goodFrame_parses⟩, rfl, ⟨_, rfl⟩, rfl, rfl, ⟨_, rfl⟩⟩
/-- Claimed by BUILD_READ; freed by RELEASE and by Reset. -/
theorem witness_OwnedChangesOnlyByClaimAndRelease :
    (∃ t, step (scheduled [.regWrite 0x00#32 0x72034002#32]) = .next t ∧ t.owned ≠ State.reset.owned) ∧
    (∃ t, step (ownedFrame.withPending [.regWrite 0x00#32 0x80000000#32]) = .next t ∧ t.owned ≠ ownedFrame.owned) ∧
    ∃ t, step (ownedFrame.withPending [.reset]) = .next t ∧ t.owned ≠ ownedFrame.owned :=
  ⟨⟨_, rfl, by decide⟩, ⟨_, rfl, by decide⟩, ⟨_, rfl, by decide⟩⟩
/-- A word on each port, and a transaction that is on neither. -/
theorem witness_StatusIsWrittenByItsPortOnly :
    (∃ t, step (scheduled [.regWrite 0x00#32 0xF0000000#32]) = .next t) ∧
    (∃ t, step (scheduled [.regWrite 0x10#32 0xF0000000#32]) = .next t) ∧
    (∃ t, step (scheduled [.regRead 0x01#32]) = .next t) ∧ Transaction.regRead 0x01#32 ≠ .reset ∧
    (∀ w, Transaction.regRead 0x01#32 ≠ .regWrite 0x00#32 w) ∧ (∀ w, Transaction.regRead 0x01#32 ≠ .regWrite 0x10#32 w) :=
  ⟨⟨_, rfl⟩, ⟨_, rfl⟩, ⟨_, rfl⟩, by decide, fun _ h => Transaction.noConfusion h, fun _ h => Transaction.noConfusion h⟩
/-- A codec command that only writes its own result, and a decoder command. -/
theorem witness_CommandsWriteOnlyTheirOwn :
    (∃ t, exec .serlen State.reset = .next t) ∧ Instr.port .serlen ≠ .bsd ∧
    (∃ t, exec (.addBit true) State.reset = .next t) ∧ Instr.port (.addBit true) ≠ .codec ∧ Instr.serlen ≠ .findHeader ∧ Instr.serlen ≠ .parse ∧
    Instr.serlen ≠ .ckCompute ∧ Instr.serlen ≠ .serialize ∧ Instr.serlen ≠ .setChecksum ∧ Instr.serlen ≠ .release ∧
    Instr.serlen ≠ .bsdReset ∧ Instr.ckCompute ≠ .serlen ∧ (∀ b, Instr.serlen ≠ .addBit b) ∧
    (∀ dst reg rdlen, Instr.serlen ≠ .buildRead dst reg rdlen) :=
  ⟨⟨_, rfl⟩, by decide, ⟨_, rfl⟩, by decide, by decide, by decide, by decide, by decide, by decide, by decide, by decide,
    by decide, fun _ h => Instr.noConfusion h, fun _ _ _ h => Instr.noConfusion h⟩
theorem witness_EveryCommandCompletes : Instr.port .release = .codec ∧ Instr.port .bsdReset = .bsd := ⟨rfl, rfl⟩
/-- A received frame, its PARSE to come. -/
theorem witness_InvariantKeptByEveryStep :
    let s := goodFrame.withPending [.regWrite 0x00#32 0x10000000#32]
    s.Inv ∧ ∃ t, step s = .next t := by
  refine ⟨?_, _, rfl⟩
  exact
    { buffers := fun sp => by
        cases sp
        · refine ⟨by rfl, fun c hc => Nat.lt_of_lt_of_le ?_ rxCap_bounds.1⟩
          have : c.1 ∈ (cellsFrom 0 frameF0).map Prod.fst := List.mem_map_of_mem hc
          have h : ∀ i ∈ (cellsFrom 0 frameF0).map Prod.fst, i < 9 := by
            show ∀ i ∈ [0, 1, 2, 3, 4, 5, 6, 7, 8], i < 9
            decide
          exact h _ this
        · exact ⟨by rfl, fun c hc => absurd hc List.not_mem_nil⟩
        · exact ⟨by rfl, fun c hc => absurd hc List.not_mem_nil⟩
      rxLen_le := rxCap_bounds.1
      offset_range := .inl rfl
      serLen_range := .inl rfl
      txLen_range := .inl rfl
      value_high := fun j _ => BitVec.getLsbD_zero
      codec_status := rfl
      codec_offset := rfl
      bsd_status := rfl }
theorem witness_SafeScheduleRunsToItsEnd :
    SafeSchedule (scheduled [.bufRead .txbuf 263, .regWrite 0x00#32 0x90000000#32, .reset]) := by
  intro t ht
  revert t; decide
theorem witness_StepsPerformScheduleInOrder :
    ∃ t, performAll [.regWrite 0x00#32 0x40000000#32, .regRead 0x04#32] { State.reset with pending := [.reset] } = .next t :=
  ⟨_, rfl⟩
/-- The ends of the range of MSG registers, and a byte of each buffer. -/
theorem witness_CopiesAreDecoupled :
    (∃ t, performAll [.bufWrite .rxbuf 0 0x77#8, .regWrite 0x02#32 0#32] goodFrame = .next t) ∧
    (∃ t, performAll [.bufWrite .payload 254 0x77#8, .regWrite 0x08#32 3#32, .regWrite 0x0D#32 0#32] goodFrame = .next t) := by
  refine ⟨?_, _, rfl⟩
  simp only [performAll, perform]
  rw [if_pos (show Space.hostWritable .rxbuf = true from rfl), if_pos (show 0 < Config.capacity .rxbuf from
    Nat.lt_of_lt_of_le (by decide) rxCap_bounds.1)]
  simp only [show (0x02#32) = Reg.rxLen.number from rfl, writeNumber_number, writeRegister]
  exact ⟨_, rfl⟩

end Sys2Proof.Tests
end

section
/-! Proofs about what a step does (20_memory.md R56, R57). -/

namespace Sys2Proof.Proofs.Steps

open Sys2Proof.Machine

/-- Settles O7: with an empty list a step has no transaction to perform (`step_nil`; log entry 1). -/
theorem idleBlockStaysAsItIs : Obligations.IdleBlockStaysAsItIs := by
  intro s hidle
  exact step_nil hidle

end Sys2Proof.Proofs.Steps
end

section
/-! What a legal word says of its command: its port, its word, its opcode (30_encoding.md R70 to R73). -/

namespace Sys2Proof.Machine

/-- A word the codec port accepts is its command's word. -/
theorem encode_of_decode_codec {w : Word} {i : Instr} (h : decode .codec w = .ok i) :
    i.port = .codec ∧ encode i = w := by
  rw [decode_codec] at h
  split_ifs at h with h1 h2 h3 h4 h5 h6 h7 h8 <;> cases h
  · exact ⟨rfl, BitVec.eq_of_toNat_eq h1.symm⟩
  · exact ⟨rfl, BitVec.eq_of_toNat_eq h2.symm⟩
  · exact ⟨rfl, BitVec.eq_of_toNat_eq h3.symm⟩
  · exact ⟨rfl, BitVec.eq_of_toNat_eq h4.symm⟩
  · exact ⟨rfl, BitVec.eq_of_toNat_eq h5.symm⟩
  · exact ⟨rfl, BitVec.eq_of_toNat_eq h6.symm⟩
  · refine ⟨rfl, BitVec.eq_of_toNat_eq ?_⟩
    rw [encode_buildRead_toNat, dstOperand_toNat, regOperand_toNat, rdlenOperand_toNat]
    omega
  · exact ⟨rfl, BitVec.eq_of_toNat_eq h8.symm⟩

/-- `b` of a word as a number (30_encoding.md R71). -/
theorem bitOperand_toNat (w : Word) : (bitOperand w).toNat = w.toNat % 2 := by
  rw [bitOperand_eq]
  rcases Nat.mod_two_eq_zero_or_one w.toNat with h | h <;> simp [h]

theorem encode_addBit_toNat (b : Bool) : (encode (.addBit b)).toNat = 0xA0000000 + b.toNat := by
  cases b <;> rfl

theorem encode_checkParity_toNat (b : Bool) : (encode (.checkParity b)).toNat = 0xB0000000 + b.toNat := by
  cases b <;> rfl

/-- A word the decoder port accepts is its command's word. -/
theorem encode_of_decode_bsd {w : Word} {i : Instr} (h : decode .bsd w = .ok i) :
    i.port = .bsd ∧ encode i = w := by
  rw [decode_bsd] at h
  split_ifs at h with h1 h2 h3 <;> cases h
  · refine ⟨rfl, BitVec.eq_of_toNat_eq ?_⟩
    rw [encode_addBit_toNat, bitOperand_toNat]
    omega
  · refine ⟨rfl, BitVec.eq_of_toNat_eq ?_⟩
    rw [encode_checkParity_toNat, bitOperand_toNat]
    omega
  · exact ⟨rfl, BitVec.eq_of_toNat_eq h3.symm⟩

/-- A legal word is its command's word, on its command's port: decoding drops no bit. -/
theorem encode_of_decode {p : Port} {w : Word} {i : Instr} (h : decode p w = .ok i) :
    i.port = p ∧ encode i = w := by
  cases p with
  | codec => exact encode_of_decode_codec h
  | bsd => exact encode_of_decode_bsd h

/-- Bits [31:28] of a command's word are its opcode. -/
@[simp] theorem opField_encode (i : Instr) : opField (encode i) = i.opcode := by
  apply BitVec.eq_of_toNat_eq
  have := i.operandBits.isLt
  rw [opField_toNat, encode_toNat]
  omega

end Sys2Proof.Machine
end

section
/-! The two units kept apart (10_state.md R21). A codec command runs the same beside any decoder unit; a decoder command
looks at VALUE and BIT_INDEX and writes the decoder unit. -/

namespace Sys2Proof.Machine

/-- The decoder unit's registers (10_state.md R20). -/
structure Decoder where
  code : BsdCode
  op : BitVec 4
  value : Byte
  bitIndex : Fin 9

/-- The decoder unit of a state. -/
def State.decoder (s : State) : Decoder := ⟨s.bsdCode, s.bsdOp, s.value, s.bitIndex⟩

/-- The same codec unit beside another decoder unit, the reads so far having returned other values. -/
def State.beside (s : State) (d : Decoder) (vs : List ReadValue) : State :=
  { s with bsdCode := d.code, bsdOp := d.op, value := d.value, bitIndex := d.bitIndex, returned := vs }

variable {s t : State}

section Beside
variable (s) (d : Decoder) (vs : List ReadValue)

@[simp] theorem State.beside_self : s.beside s.decoder s.returned = s := rfl

@[simp] theorem State.byte_beside (sp : Space) (i : Nat) : (s.beside d vs).byte sp i = s.byte sp i := by
  cases sp <;> rfl

@[simp] theorem State.bytes_beside (sp : Space) (a n : Nat) : (s.beside d vs).bytes sp a n = s.bytes sp a n :=
  State.bytes_congr fun _ _ => State.byte_beside ..

@[simp] theorem State.message_beside : (s.beside d vs).message = s.message := by
  simp only [State.message, State.bytes_beside]; rfl

@[simp] theorem State.findMarker_beside (n : Nat) : (s.beside d vs).findMarker n = s.findMarker n :=
  State.findMarker_congr fun _ _ => State.byte_beside ..

@[simp] theorem State.frameLen_beside (off : Nat) : (s.beside d vs).frameLen off = s.frameLen off := rfl

@[simp] theorem State.frameSpan_beside (off : Nat) : (s.beside d vs).frameSpan off = s.frameSpan off := by
  simp only [State.frameSpan, State.frameLen_beside, State.bytes_beside]

@[simp] theorem State.frameMessage_beside (off : Nat) : (s.beside d vs).frameMessage off = s.frameMessage off := by
  simp only [State.frameMessage, State.frameLen_beside, State.bytes_beside, State.byte_beside]

end Beside

/-- PARSE runs the same beside any decoder unit. -/
theorem execParse_beside (h : execParse s = .next t) (d : Decoder) (vs : List ReadValue) :
    execParse (s.beside d vs) = .next (t.beside d vs) := by
  simp only [execParse, State.findMarker_beside, State.frameLen_beside, State.frameMessage_beside,
    State.frameSpan_beside, show (s.beside d vs).rxLen = s.rxLen from rfl,
    show (s.beside d vs).owned = s.owned from rfl] at h ⊢
  split at h
  · cases h; rfl
  · split_ifs at h ⊢ <;> cases h <;> rfl

/-- A codec command neither reads nor writes the decoder unit, nor what reads have returned (10_state.md R21). -/
theorem exec_beside {i : Instr} (hp : i.port = .codec) (h : exec i s = .next t) (d : Decoder) (vs : List ReadValue) :
    exec i (s.beside d vs) = .next (t.beside d vs) := by
  cases i with
  | findHeader =>
    simp only [exec, execFindHeader, State.findMarker_beside, show (s.beside d vs).rxLen = s.rxLen from rfl] at h ⊢
    split at h <;> cases h <;> rfl
  | ckCompute =>
    cases h
    simp only [exec, execCkCompute, State.bytes_beside]; rfl
  | parse => exact execParse_beside h d vs
  | serlen => cases h; rfl
  | setChecksum =>
    cases h
    simp only [exec, execSetChecksum, State.message_beside]; rfl
  | serialize =>
    cases h
    simp only [exec, execSerialize, State.message_beside]; rfl
  | buildRead dst reg rdlen =>
    simp only [exec, execBuildRead, show (s.beside d vs).owned = s.owned from rfl] at h ⊢
    split_ifs at h ⊢ <;> cases h <;> rfl
  | release =>
    simp only [exec, execRelease, show (s.beside d vs).owned = s.owned from rfl] at h ⊢
    split_ifs at h ⊢ <;> cases h <;> rfl
  | addBit b => cases hp
  | checkParity b => cases hp
  | bsdReset => cases hp

/-- What runs the same beside the state's own decoder unit has left it, and the values returned, as they were. -/
theorem keeps_of_beside {f : State → Result} (h : f s = .next t)
    (hb : f (s.beside s.decoder s.returned) = .next (t.beside s.decoder s.returned)) :
    t.decoder = s.decoder ∧ t.returned = s.returned := by
  have ht : t = t.beside s.decoder s.returned := Host.Outcome.next.inj (h.symm.trans hb)
  rw [ht]
  exact ⟨rfl, rfl⟩

/-- A codec command leaves the decoder unit and the values returned as they were. -/
theorem exec_codec_keeps {i : Instr} (hp : i.port = .codec) (h : exec i s = .next t) :
    t.decoder = s.decoder ∧ t.returned = s.returned :=
  keeps_of_beside h (exec_beside hp h s.decoder s.returned)

/-- The decoder unit after ADD_BIT, from VALUE and BIT_INDEX (45_bitstream.md R170). -/
def addBitDecoder (b : Bool) (v : Byte) (k : Fin 9) : Decoder :=
  if k.val = 8 then ⟨.alreadyComplete, 0xA#4, v, k⟩
  else ⟨if (nextIndex k).val = 8 then .complete else .accepted, 0xA#4, setBit v k.val b, nextIndex k⟩

/-- The decoder unit after CHECK_PARITY, from VALUE and BIT_INDEX (45_bitstream.md R174). -/
def checkParityDecoder (b : Bool) (v : Byte) (k : Fin 9) : Decoder :=
  ⟨if k.val = 8 then (if b = parity v then .matched else .mismatched) else .notReady, 0xB#4, v, k⟩

theorem exec_addBit (b : Bool) (s : State) :
    exec (.addBit b) s = .next (s.beside (addBitDecoder b s.value s.bitIndex) s.returned) := by
  simp only [exec, execAddBit, State.ready_iff, addBitDecoder]
  split_ifs <;> rfl

theorem exec_checkParity (b : Bool) (s : State) :
    exec (.checkParity b) s = .next (s.beside (checkParityDecoder b s.value s.bitIndex) s.returned) := by
  simp only [exec, execCheckParity, State.ready_iff, checkParityDecoder]
  split_ifs <;> rfl

/-- A decoder command computes a new decoder unit, with its opcode in OP, from VALUE and BIT_INDEX, and writes nothing
else (10_state.md R21). -/
theorem exec_bsd_beside {i : Instr} (hp : i.port = .bsd) :
    ∃ f : Byte → Fin 9 → Decoder, (∀ v k, (f v k).op = i.opcode) ∧
      ∀ s : State, exec i s = .next (s.beside (f s.value s.bitIndex) s.returned) := by
  cases i with
  | addBit b =>
    refine ⟨addBitDecoder b, fun v k => ?_, exec_addBit b⟩
    simp only [addBitDecoder]; split_ifs <;> rfl
  | checkParity b => exact ⟨checkParityDecoder b, fun _ _ => rfl, exec_checkParity b⟩
  | bsdReset => exact ⟨fun _ _ => ⟨.ok, 0xC#4, 0#8, 0⟩, fun _ _ => rfl, fun _ => rfl⟩
  | _ => cases hp

/-- A decoder command changes the decoder unit only, and leaves its opcode in OP. -/
theorem exec_bsd_keeps {i : Instr} (hp : i.port = .bsd) (h : exec i s = .next t) :
    t.bsdOp = i.opcode ∧ t = s.beside t.decoder s.returned := by
  obtain ⟨f, hop, hf⟩ := exec_bsd_beside hp
  rw [hf s] at h
  cases h
  exact ⟨hop _ _, rfl⟩

/-- Every command answers a next state (60_exceptions.md R190). -/
theorem exec_next (i : Instr) (s : State) : ∃ t, exec i s = .next t := by
  cases i with
  | findHeader => simp only [exec, execFindHeader]; split <;> exact ⟨_, rfl⟩
  | parse =>
    simp only [exec, execParse]
    split
    · exact ⟨_, rfl⟩
    · split_ifs <;> exact ⟨_, rfl⟩
  | buildRead dst reg rdlen => simp only [exec, execBuildRead]; split_ifs <;> exact ⟨_, rfl⟩
  | release => simp only [exec, execRelease]; split_ifs <;> exact ⟨_, rfl⟩
  | addBit b => exact ⟨_, exec_addBit b s⟩
  | checkParity b => exact ⟨_, exec_checkParity b s⟩
  | _ => exact ⟨_, rfl⟩

end Sys2Proof.Machine
end

section
/-! The two units' transactions (10_state.md R21): a codec transaction runs the same beside any decoder unit, a decoder
transaction the same beside any codec unit. -/

namespace Sys2Proof.Machine

variable {s t : State}

/-! ## The codec unit -/

/-- A word written to the codec port does the same beside any decoder unit. -/
theorem issue_beside {w : Word} (h : issue .codec w s = .next t) (d : Decoder) (vs : List ReadValue) :
    issue .codec w (s.beside d vs) = .next (t.beside d vs) := by
  simp only [issue] at h ⊢
  cases hw : decode .codec w with
  | ok i => simp only [hw] at h ⊢; exact exec_beside (encode_of_decode hw).1 h d vs
  | error e => simp only [hw] at h ⊢; cases h; rfl

/-- A write to a codec register does the same beside any decoder unit. -/
theorem writeNumber_beside {n w : Word} (hn : n.toNat < 0x10) (h : writeNumber n w s = .next t) (d : Decoder)
    (vs : List ReadValue) : writeNumber n w (s.beside d vs) = .next (t.beside d vs) := by
  simp only [writeNumber] at h ⊢
  cases hr : regOfNumber n with
  | none => simp only [hr] at h ⊢; cases h; rfl
  | some r =>
    simp only [hr] at h ⊢
    rw [number_of_regOfNumber hr] at hn
    cases r with
    | codecCmd => exact issue_beside h d vs
    | rxLen =>
      simp only [writeRegister, State.writeRxLen] at h ⊢
      split_ifs at h ⊢ <;> cases h <;> rfl
    | bsdCmd | bsdStatus | bsdState => exact absurd hn (by decide)
    | _ => cases h; rfl

/-- A codec register reads the same beside any decoder unit. -/
theorem numberValue_beside {n : Word} (hn : n.toNat < 0x10) (s : State) (d : Decoder) (vs : List ReadValue) :
    numberValue n (s.beside d vs) = numberValue n s := by
  simp only [numberValue]
  cases hr : regOfNumber n with
  | none => rfl
  | some r =>
    rw [number_of_regOfNumber hr] at hn
    cases r with
    | bsdCmd | bsdStatus | bsdState => exact absurd hn (by decide)
    | _ => rfl

/-- Every register write answers a next state. -/
theorem writeNumber_next (n w : Word) (s : State) : ∃ t, writeNumber n w s = .next t := by
  rcases writeNumber_cases (rfl : writeNumber n w s = _) with ⟨p, -, h⟩ | ⟨-, -, t, h, -⟩
  · rcases issue_cases (rfl : issue p w s = _) with ⟨i, -, h'⟩ | ⟨-, -, h'⟩
    · rw [h, h']; exact exec_next i s
    · exact ⟨_, h.trans h'⟩
  · exact ⟨t, h⟩

/-- A codec transaction does the same, and returns the same, beside any decoder unit. -/
theorem perform_codec_beside {c : Transaction} (hc : c.onCodec = true) (hwf : c.wellFormed = true) (s : State) :
    ∃ (cv : List ReadValue) (a : State), cv.length = c.isRead.toNat ∧ a.returned = s.returned ++ cv ∧
      a.decoder = s.decoder ∧ ∀ d vs, perform c (s.beside d vs) = .next (a.beside d (vs ++ cv)) := by
  cases c with
  | regRead n =>
    have hn : n.toNat < 0x10 := of_decide_eq_true hc
    refine ⟨[.word (numberValue n s)], s.record (.word (numberValue n s)), rfl, rfl, rfl, fun d vs => ?_⟩
    simp only [perform, numberValue_beside hn]; rfl
  | regWrite n w =>
    have hn : n.toNat < 0x10 := of_decide_eq_true hc
    obtain ⟨t, ht⟩ := writeNumber_next n w s
    obtain ⟨hd, hr⟩ := keeps_of_beside ht (writeNumber_beside hn ht s.decoder s.returned)
    exact ⟨[], t, rfl, by simpa using hr, hd, fun d vs => by
      simpa [perform] using writeNumber_beside hn ht d vs⟩
  | bufRead sp i =>
    have hi : i < Config.capacity sp := of_decide_eq_true hwf
    refine ⟨[.byte (s.byte sp i)], s.record (.byte (s.byte sp i)), rfl, rfl, rfl, fun d vs => ?_⟩
    simp only [perform, if_pos hi, State.byte_beside]; rfl
  | bufWrite sp i b =>
    obtain ⟨hsp, hi⟩ : sp.hostWritable = true ∧ i < Config.capacity sp := by
      simpa [Transaction.wellFormed] using hwf
    refine ⟨[], s.writeByte sp i b, rfl, ?_, ?_, fun d vs => ?_⟩
    · cases sp <;> simp [State.writeByte]
    · cases sp <;> rfl
    · simp only [perform, if_pos hsp, if_pos hi, List.append_nil]
      cases sp <;> rfl
  | reset => cases hc

/-! ## The decoder unit -/

/-- A word written to the decoder port computes a new decoder unit from the old one. -/
theorem issue_bsd_beside (w : Word) :
    ∃ f : Decoder → Decoder, ∀ s : State, issue .bsd w s = .next (s.beside (f s.decoder) s.returned) := by
  cases hw : decode .bsd w with
  | ok i =>
    obtain ⟨f, -, hf⟩ := exec_bsd_beside (encode_of_decode hw).1
    exact ⟨fun d => f d.value d.bitIndex, fun s => by simp only [issue, hw, hf]; rfl⟩
  | error e =>
    exact ⟨fun d => { d with code := .illegalCmd, op := opField w }, fun s => by simp only [issue, hw]; rfl⟩

/-- A write to a decoder register computes a new decoder unit from the old one. -/
theorem writeNumber_bsd_beside {n : Word} (hn : 0x10 ≤ n.toNat) (w : Word) :
    ∃ f : Decoder → Decoder, ∀ s : State, writeNumber n w s = .next (s.beside (f s.decoder) s.returned) := by
  cases hr : regOfNumber n with
  | none => exact ⟨id, fun s => by simp only [writeNumber, hr]; rfl⟩
  | some r =>
    obtain rfl := number_of_regOfNumber hr
    simp only [writeNumber_number]
    cases r with
    | bsdCmd => exact issue_bsd_beside w
    | bsdStatus | bsdState => exact ⟨id, fun s => rfl⟩
    | _ => exact absurd hn (by decide)

/-- A decoder register's value is the decoder unit's. -/
theorem numberValue_bsd {n : Word} (hn : 0x10 ≤ n.toNat) (h : t.decoder = s.decoder) :
    numberValue n t = numberValue n s := by
  obtain ⟨hcode, hop, hvalue, hindex⟩ := Decoder.mk.inj h
  simp only [numberValue]
  cases hr : regOfNumber n with
  | none => rfl
  | some r =>
    rw [number_of_regOfNumber hr] at hn
    cases r with
    | bsdCmd => rfl
    | bsdStatus => simp only [registerValue, hcode, hop]
    | bsdState => simp only [registerValue, bsdStateValue, State.ready, hvalue, hindex]
    | _ => exact absurd hn (by decide)

/-- A decoder transaction does the same, and returns the same, on every state with the same decoder unit. -/
theorem perform_decoder_beside {d : Transaction} (hd : d.onDecoder = true) (s : State) :
    ∃ (dv : List ReadValue) (e : Decoder), dv.length = d.isRead.toNat ∧
      ∀ t : State, t.decoder = s.decoder → perform d t = .next (t.beside e (t.returned ++ dv)) := by
  cases d with
  | regRead n =>
    obtain ⟨hn, -⟩ : 0x10 ≤ n.toNat ∧ n.toNat ≤ 0x12 := of_decide_eq_true hd
    refine ⟨[.word (numberValue n s)], s.decoder, rfl, fun t ht => ?_⟩
    simp only [perform, numberValue_bsd hn ht, ← ht]; rfl
  | regWrite n w =>
    obtain ⟨hn, -⟩ : 0x10 ≤ n.toNat ∧ n.toNat ≤ 0x12 := of_decide_eq_true hd
    obtain ⟨f, hf⟩ := writeNumber_bsd_beside hn w
    exact ⟨[], f s.decoder, rfl, fun t ht => by simp only [perform, hf, ht, List.append_nil]⟩
  | bufRead sp i => cases hd
  | bufWrite sp i b => cases hd
  | reset => cases hd

end Sys2Proof.Machine
end

section
/-! The two units and their transactions: what each can tell of the other (10_state.md R21, 20_memory.md R57). -/

namespace Sys2Proof.Proofs.Units

open Sys2Proof.Machine

/-- Settles O43: the codec transaction runs the same beside the decoder unit the other transaction leaves
(`perform_codec_beside`), and the decoder transaction the same on the state the codec transaction leaves
(`perform_decoder_beside`). -/
theorem codecAndDecoderCommute : Obligations.CodecAndDecoderCommute := by
  intro s c d hc hd hwf
  obtain ⟨cv, a, hcv, har, had, hcb⟩ := perform_codec_beside hc hwf s
  obtain ⟨dv, e, hdv, hdb⟩ := perform_decoder_beside hd s
  have hca : perform c s = .next a := by
    rw [← s.beside_self, hcb s.decoder s.returned, ← har, ← had, a.beside_self]
  have hbs : perform d s = .next (s.beside e (s.returned ++ dv)) := hdb s rfl
  have hda : perform d a = .next (a.beside e (s.returned ++ cv ++ dv)) := har ▸ hdb a had
  have hcb' : perform c (s.beside e (s.returned ++ dv)) = .next (a.beside e (s.returned ++ dv ++ cv)) := hcb e _
  refine ⟨cv, dv, a, _, _, _, hca, har, hcv, hbs, rfl, hdv, hda, rfl, hcb', rfl, ?_, ?_, rfl, fun hno => ?_⟩
  · simp only [performAll, hca, hda]
  · simp only [performAll, hbs, hcb']
  · rcases hno with hno | hno
    · obtain rfl : cv = [] := List.eq_nil_of_length_eq_zero (by rw [hcv, hno]; rfl)
      simp only [List.append_nil]
    · obtain rfl : dv = [] := List.eq_nil_of_length_eq_zero (by rw [hdv, hno]; rfl)
      simp only [List.append_nil]

/-- Settles O44: a codec command runs the same beside any decoder unit (`exec_beside`), a decoder command maps VALUE and
BIT_INDEX to a decoder unit (`exec_bsd_beside`). -/
theorem unitsShareNoState : Obligations.UnitsShareNoState := by
  refine ⟨fun i s t hp h => ?_, fun i s t hp h => ⟨(exec_bsd_keeps hp h).2, fun s' t' hv hk h' => ?_⟩⟩
  · obtain ⟨hd, hr⟩ := exec_codec_keeps hp h
    obtain ⟨hcode, hop, hvalue, hindex⟩ := Decoder.mk.inj hd
    refine ⟨hcode, hop, hvalue, hindex, fun c op v k => ?_⟩
    exact (exec_beside hp h ⟨c, op, v, k⟩ s.returned).trans (by rw [← hr]; rfl)
  · obtain ⟨f, -, hf⟩ := exec_bsd_beside hp
    rw [hf s] at h
    rw [hf s', hv, hk] at h'
    cases h; cases h'
    exact ⟨rfl, rfl, rfl, rfl⟩

end Sys2Proof.Proofs.Units
end

section
/-! What a transaction can do, seen from the registers: it delivers a command word, or resets the block, or is the host's own
access. A command's effect on the shared registers is said once, in `CodecRun`. -/

namespace Sys2Proof.Machine

variable {s t : State}

/-! ## Commands -/

/-- What a codec command that takes `s` to `t` does to RX_LEN, CODEC_STATUS.OP, OFFSET and OWNED (10_state.md R24, R25, R26,
R31). -/
structure CodecRun (i : Instr) (s t : State) : Prop where
  rxLen_eq : t.rxLen = s.rxLen
  codecOp_eq : t.codecOp = i.opcode
  /-- Only the two searches write OFFSET. -/
  offset_eq : i = .findHeader ∨ i = .parse ∨ t.offset = s.offset
  /-- OWNED is kept, or a claim sets it with OK, or RELEASE clears it with OK. -/
  owned_cases : t.owned = s.owned ∨
    (t.owned = true ∧ t.codecCode = .ok ∧ (i = .parse ∨ ∃ dst reg rdlen, i = .buildRead dst reg rdlen)) ∨
    (t.owned = false ∧ t.codecCode = .ok ∧ i = .release)

theorem exec_codecRun {i : Instr} (hp : i.port = .codec) (h : exec i s = .next t) : CodecRun i s t := by
  cases i with
  | findHeader =>
    rcases execFindHeader_cases h with ⟨i, -, rfl⟩ | ⟨-, rfl⟩ <;> exact ⟨rfl, rfl, .inl rfl, .inl rfl⟩
  | ckCompute => cases h; exact ⟨rfl, rfl, .inr (.inr rfl), .inl rfl⟩
  | parse =>
    rcases execParse_cases h with ⟨-, rfl⟩ | ⟨off, -, ⟨c, -, rfl⟩ | ⟨-, -, -, rfl⟩⟩
    · exact ⟨rfl, rfl, .inr (.inl rfl), .inl rfl⟩
    · exact ⟨rfl, rfl, .inr (.inl rfl), .inl rfl⟩
    · exact ⟨rfl, rfl, .inr (.inl rfl), .inr (.inl ⟨rfl, rfl, .inl rfl⟩)⟩
  | serlen => cases h; exact ⟨rfl, rfl, .inr (.inr rfl), .inl rfl⟩
  | setChecksum => cases h; exact ⟨rfl, rfl, .inr (.inr rfl), .inl rfl⟩
  | serialize => cases h; exact ⟨rfl, rfl, .inr (.inr rfl), .inl rfl⟩
  | buildRead dst reg rdlen =>
    rcases execBuildRead_cases h with ⟨-, rfl⟩ | ⟨-, -, rfl⟩ | ⟨-, -, rfl⟩
    · exact ⟨rfl, rfl, .inr (.inr rfl), .inl rfl⟩
    · exact ⟨rfl, rfl, .inr (.inr rfl), .inl rfl⟩
    · exact ⟨rfl, rfl, .inr (.inr rfl), .inr (.inl ⟨rfl, rfl, .inr ⟨dst, reg, rdlen, rfl⟩⟩)⟩
  | release =>
    rcases execRelease_cases h with ⟨-, rfl⟩ | ⟨-, rfl⟩
    · exact ⟨rfl, rfl, .inr (.inr rfl), .inr (.inr ⟨rfl, rfl, rfl⟩)⟩
    · exact ⟨rfl, rfl, .inr (.inr rfl), .inl rfl⟩
  | addBit b | checkParity b | bsdReset => cases hp

/-- No command writes RX_LEN (10_state.md R25). -/
theorem exec_rxLen {i : Instr} (h : exec i s = .next t) : t.rxLen = s.rxLen := by
  cases hp : i.port with
  | codec => exact (exec_codecRun hp h).rxLen_eq
  | bsd => rw [(exec_bsd_keeps hp h).2]; rfl

/-! ## Steps -/

/-- The host's own accesses, that issue no command and do not reset: they write RX_LEN within its bound, the message
registers, RXBUF and PAYLOAD within their sizes, and the list of values returned (20_memory.md R56). -/
structure HostAccess (s t : State) : Prop where
  frame : t = { s with
    rxLen := t.rxLen, msgLen := t.msgLen, msgSrc := t.msgSrc, msgDst := t.msgDst, msgCmd := t.msgCmd, msgArg := t.msgArg,
    msgCks := t.msgCks, rxbuf := t.rxbuf, payload := t.payload, returned := t.returned }
  rxLen_cases : t.rxLen = s.rxLen ∨ t.rxLen.toNat ≤ Config.rxCap
  buffers_wf : (∀ sp, BufferWf s sp) → ∀ sp, BufferWf t sp

/-- A buffer in which bytes were written within its size stays in canonical form and within it. -/
theorem BufferWf.writeBytes {sp : Space} {a : Nat} {bs : List Byte} (h : BufferWf s sp)
    (hm : t.memory sp = (s.memory sp).writeBytes a bs) (ha : a + bs.length ≤ Config.capacity sp) : BufferWf t sp := by
  rw [BufferWf, hm]
  exact ⟨Memory.wf_writeBytes a bs h.1, Memory.bound_writeBytes h.2 ha⟩

/-- A buffer that was not written stays as it was. -/
theorem BufferWf.congr {sp : Space} (h : BufferWf s sp) (hm : t.memory sp = s.memory sp) : BufferWf t sp := by
  rw [BufferWf, hm]; exact h

theorem memory_writeByte (s : State) (sp : Space) (a : Nat) (b : Byte) (sp' : Space) :
    (s.writeByte sp a b).memory sp' = if sp' = sp then (s.memory sp').write a b else s.memory sp' := by
  cases sp <;> cases sp' <;> rfl

/-- A byte written within a buffer keeps every buffer well formed. -/
theorem bufferWf_writeByte {sp : Space} {a : Nat} (b : Byte) (ha : a < Config.capacity sp)
    (h : ∀ sp, BufferWf s sp) (sp' : Space) : BufferWf (s.writeByte sp a b) sp' := by
  have hm := memory_writeByte s sp a b sp'
  split_ifs at hm with hsp
  · exact (h sp').writeBytes (bs := [b]) hm (hsp ▸ ha)
  · exact (h sp').congr hm

theorem hostAccess_record (s : State) (v : ReadValue) : HostAccess s (s.record v) :=
  ⟨rfl, .inl rfl, fun h sp => (h sp).congr (by cases sp <;> rfl)⟩

theorem hostAccess_writeByte (s : State) {sp : Space} {a : Nat} (b : Byte) (hsp : sp.hostWritable = true)
    (ha : a < Config.capacity sp) : HostAccess s (s.writeByte sp a b) := by
  refine ⟨?_, ?_, bufferWf_writeByte b ha⟩
  · cases sp with
    | rxbuf | payload => rfl
    | txbuf => cases hsp
  · cases sp <;> exact .inl rfl

/-- What one transaction that is not refused can do: run the command of a legal word, report an illegal word, reset the
block, or be an access of the host's that writes no command port. -/
theorem perform_next_cases {tr : Transaction} (h : perform tr s = .next t) :
    (∃ p w i, tr = .regWrite p.register.number w ∧ decode p w = .ok i ∧ exec i s = .next t) ∨
    (∃ p w, tr = .regWrite p.register.number w ∧ t = s.illegal p w) ∨
    (tr = .reset ∧ t = s.hardReset) ∨
    ((∀ (p : Port) w, tr ≠ .regWrite p.register.number w) ∧ HostAccess s t) := by
  rcases perform_cases h with ⟨n, rfl, ht⟩ | ⟨n, w, rfl, ht⟩ | ⟨sp, i, rfl, ⟨hi, ht⟩ | ⟨-, ht⟩⟩ |
    ⟨sp, i, b, rfl, ⟨hsp, hi, ht⟩ | ⟨-, -, ht⟩ | ⟨-, ht⟩⟩ | ⟨rfl, ht⟩
  · cases ht; exact .inr (.inr (.inr ⟨nofun, hostAccess_record s _⟩))
  · rcases writeNumber_cases ht.symm with ⟨p, rfl, hissue⟩ | ⟨hcodec, hbsd, u, hu, hrx, hframe⟩
    · rcases issue_cases hissue.symm with ⟨i, hi, hrun⟩ | ⟨e, -, hill⟩
      · exact .inl ⟨p, w, i, rfl, hi, hrun.symm⟩
      · cases hill; exact .inr (.inl ⟨p, w, rfl, rfl⟩)
    · cases hu
      refine .inr (.inr (.inr ⟨fun p w' heq => ?_, ?_, hrx, fun hb sp => ?_⟩))
      · cases heq
        cases p with
        | codec => exact hcodec rfl
        | bsd => exact hbsd rfl
      · rw [hframe]
      · exact (hb sp).congr (by rw [hframe]; cases sp <;> rfl)
  · cases ht; exact .inr (.inr (.inr ⟨nofun, hostAccess_record s _⟩))
  · cases ht
  · cases ht; exact .inr (.inr (.inr ⟨nofun, hostAccess_writeByte s b hsp hi⟩))
  · cases ht
  · cases ht
  · cases ht; exact .inr (.inr (.inl ⟨rfl, rfl⟩))

end Sys2Proof.Machine
end

section
/-! The invariant of reachable states (Sys2Proof/Safety.lean): it holds at reset, and every command, every illegal word,
Reset and every access of the host's keeps it. -/

namespace Sys2Proof.Machine

variable {s t : State}

theorem reset_inv : State.reset.Inv where
  buffers sp := by cases sp <;> exact ⟨rfl, nofun⟩
  rxLen_le := Nat.zero_le _
  offset_range := .inl rfl
  serLen_range := .inl rfl
  txLen_range := .inl rfl
  value_high _ _ := BitVec.getLsbD_zero
  codec_status := rfl
  codec_offset := rfl
  bsd_status := rfl

/-- The invariant says nothing of the model's own fields (log entries 1, 2 and 6). -/
theorem State.Inv.withHost (hi : s.Inv) (ts : List Transaction) (vs : List ReadValue) (n : Nat) :
    ({ s with pending := ts, returned := vs, resets := n } : State).Inv :=
  { hi with buffers := hi.buffers }

/-! ## Codec commands -/

/-- An offset the search found is at most RX_LEN - 2, and no sentinel (10_state.md R26). -/
theorem foundOffset_toNat {off : Nat} (h : s.findMarker s.rxLen.toNat = some off) :
    (BitVec.ofNat 16 off).toNat = off ∧ off + 2 ≤ s.rxLen.toNat ∧ off ≤ 65533 := by
  obtain ⟨hlt, -, -⟩ := s.findMarker_eq_some.mp h
  have := s.rxLen.isLt
  refine ⟨?_, by omega, by omega⟩
  rw [BitVec.toNat_ofNat]; omega

theorem foundOffset_ne_notFound {off : Nat} (h : s.findMarker s.rxLen.toNat = some off) :
    BitVec.ofNat 16 off ≠ 0xFFFF#16 := by
  obtain ⟨hoff, -, hle⟩ := foundOffset_toNat h
  intro he
  rw [he] at hoff
  simp only [BitVec.toNat_ofNat] at hoff
  omega

theorem foundOffset_range {off : Nat} (h : s.findMarker s.rxLen.toNat = some off) :
    BitVec.ofNat 16 off = 0xFFFF#16 ∨ (BitVec.ofNat 16 off).toNat ≤ 65533 := by
  obtain ⟨hoff, -, hle⟩ := foundOffset_toNat h
  exact .inr (by omega)

theorem execFindHeader_inv (h : execFindHeader s = .next t) (hi : s.Inv) : t.Inv := by
  rcases execFindHeader_cases h with ⟨off, hoff, rfl⟩ | ⟨-, rfl⟩
  · exact { hi with offset_range := foundOffset_range hoff, codec_status := rfl, codec_offset := rfl }
  · exact { hi with offset_range := .inl rfl, codec_status := rfl, codec_offset := rfl }

/-- A frame length, 9 + MSG_LEN, fits its 9 bits (10_state.md R27). -/
theorem frameLength_toNat (s : State) : s.frameLength.toNat = 9 + s.msgLen.toNat := by
  have := s.msgLen.isLt
  rw [State.frameLength, BitVec.toNat_ofNat, Config.minFrame]; omega

theorem frameLength_range (s : State) :
    s.frameLength = 0#9 ∨ (9 ≤ s.frameLength.toNat ∧ s.frameLength.toNat ≤ 264) := by
  have := s.msgLen.isLt
  rw [frameLength_toNat]; omega

/-- What PARSE reports of a found frame stands beside OP 3 and the frame's offset (60_exceptions.md R191). -/
theorem parseFailure_legal {off : Nat} {c : CodecCode} (hc : ParseFailure s off c) {o : BitVec 16} (ho : o ≠ 0xFFFF#16) :
    codecStatusLegal 0x3#4 c = true ∧ codecOffsetLegal 0x3#4 o c = true := by
  cases hc <;> simp [codecStatusLegal, codecOffsetLegal, ho]

/-- PAYLOAD after a message of a byte's length is stored in it. -/
theorem bufferWf_storeMessage {m : Message} (hm : m.payload.length ≤ 255) (hb : ∀ sp, BufferWf s sp) (sp : Space) :
    BufferWf (s.storeMessage m) sp := by
  cases sp with
  | payload => exact (hb .payload).writeBytes rfl (by rw [Nat.zero_add]; exact hm)
  | rxbuf => exact hb .rxbuf
  | txbuf => exact hb .txbuf

theorem frameMessage_payload_length (s : State) (off : Nat) :
    (s.frameMessage off).payload.length = (s.frameMessage off).len.toNat := by
  simp [State.frameMessage]

theorem payload_length_le {m : Message} (h : m.payload.length = m.len.toNat) : m.payload.length ≤ 255 := by
  have := m.len.isLt; omega

theorem execParse_inv (h : execParse s = .next t) (hi : s.Inv) : t.Inv := by
  rcases execParse_cases h with ⟨-, rfl⟩ | ⟨off, hoff, ⟨c, hc, rfl⟩ | ⟨-, -, -, rfl⟩⟩
  · exact { hi with offset_range := .inl rfl, codec_status := rfl, codec_offset := rfl }
  · obtain ⟨hst, hof⟩ := parseFailure_legal hc (foundOffset_ne_notFound hoff)
    exact { hi with offset_range := foundOffset_range hoff, codec_status := hst, codec_offset := hof }
  · exact { hi with
      buffers := fun sp =>
        (bufferWf_storeMessage (payload_length_le (frameMessage_payload_length s off)) hi.buffers sp).congr
          (by cases sp <;> rfl)
      offset_range := foundOffset_range hoff, codec_status := rfl, codec_offset := rfl }

theorem execSerialize_inv (h : execSerialize s = .next t) (hi : s.Inv) : t.Inv := by
  cases h
  have hlen : 0 + (frameBytes s.message).length ≤ Config.capacity .txbuf := by
    have := s.msgLen.isLt
    rw [frameBytes_length, State.message_payload_length, Config.capacity, Config.txCap]; omega
  exact { hi with
    buffers := fun sp => by
      cases sp with
      | txbuf => exact (hi.buffers .txbuf).writeBytes rfl hlen
      | rxbuf => exact hi.buffers .rxbuf
      | payload => exact hi.buffers .payload
    txLen_range := frameLength_range s, codec_status := rfl, codec_offset := rfl }

theorem execBuildRead_inv {dst reg : Byte} {rdlen : BitVec 12} (h : execBuildRead dst reg rdlen s = .next t)
    (hi : s.Inv) : t.Inv := by
  rcases execBuildRead_cases h with ⟨-, rfl⟩ | ⟨-, -, rfl⟩ | ⟨-, -, rfl⟩
  · exact { hi with codec_status := rfl, codec_offset := rfl }
  · exact { hi with codec_status := rfl, codec_offset := by simp [codecOffsetLegal] }
  · exact { hi with
      buffers := fun sp =>
        (bufferWf_storeMessage (m := builtRequest dst reg rdlen) (Nat.le_add_left 1 254) hi.buffers sp).congr
          (by cases sp <;> rfl)
      codec_status := rfl, codec_offset := rfl }

theorem execRelease_inv (h : execRelease s = .next t) (hi : s.Inv) : t.Inv := by
  rcases execRelease_cases h with ⟨-, rfl⟩ | ⟨-, rfl⟩ <;> exact { hi with codec_status := rfl, codec_offset := rfl }

/-! ## Decoder commands -/

theorem execAddBit_inv {b : Bool} (h : execAddBit b s = .next t) (hi : s.Inv) : t.Inv := by
  rcases execAddBit_cases h with ⟨h8, rfl⟩ | ⟨hlt, hnext, rfl⟩
  · exact { hi with bsd_status := by simp [bsdStatusLegal, h8] }
  · refine { hi with value_high := fun j hj => ?_, bsd_status := ?_ }
    · simp only [hnext] at hj
      rw [setBit_getLsbD _ hlt, if_neg (by omega)]
      exact hi.value_high j (by omega)
    · split_ifs with h8
      · simp [bsdStatusLegal, hnext, h8]
      · simp only [bsdStatusLegal, hnext, true_and, decide_eq_true_eq]; omega

theorem execCheckParity_inv {b : Bool} (h : execCheckParity b s = .next t) (hi : s.Inv) : t.Inv := by
  rcases execCheckParity_cases h with ⟨hlt, rfl⟩ | ⟨h8, -, rfl⟩ | ⟨h8, -, rfl⟩
  · exact { hi with bsd_status := by simp [bsdStatusLegal, hlt] }
  · exact { hi with bsd_status := by simp [bsdStatusLegal, h8] }
  · exact { hi with bsd_status := by simp [bsdStatusLegal, h8] }

theorem execBsdReset_inv (h : execBsdReset s = .next t) (hi : s.Inv) : t.Inv := by
  cases h
  exact { hi with value_high := fun _ _ => BitVec.getLsbD_zero, bsd_status := rfl }

/-! ## Every step -/

theorem exec_inv {i : Instr} (h : exec i s = .next t) (hi : s.Inv) : t.Inv := by
  cases i with
  | findHeader => exact execFindHeader_inv h hi
  | ckCompute => cases h; exact { hi with codec_status := rfl, codec_offset := rfl }
  | parse => exact execParse_inv h hi
  | serlen => cases h; exact { hi with serLen_range := frameLength_range s, codec_status := rfl, codec_offset := rfl }
  | setChecksum => cases h; exact { hi with codec_status := rfl, codec_offset := rfl }
  | serialize => exact execSerialize_inv h hi
  | buildRead dst reg rdlen => exact execBuildRead_inv h hi
  | release => exact execRelease_inv h hi
  | addBit b => exact execAddBit_inv h hi
  | checkParity b => exact execCheckParity_inv h hi
  | bsdReset => exact execBsdReset_inv h hi

theorem illegal_inv (hi : s.Inv) (p : Port) (w : Word) : (s.illegal p w).Inv := by
  cases p with
  | codec => exact { hi with codec_status := rfl, codec_offset := rfl }
  | bsd => exact { hi with bsd_status := rfl }

theorem HostAccess.inv (h : HostAccess s t) (hi : s.Inv) : t.Inv := by
  have hb := h.buffers_wf hi.buffers
  have hrx : t.rxLen.toNat ≤ Config.rxCap := h.rxLen_cases.elim (fun e => e ▸ hi.rxLen_le) id
  rw [h.frame]
  exact { hi with
    rxLen_le := hrx
    buffers := fun sp => by
      cases sp with
      | rxbuf => exact hb .rxbuf
      | txbuf => exact hi.buffers .txbuf
      | payload => exact hb .payload }

/-- Whatever one transaction does, it keeps the invariant. -/
theorem perform_inv {tr : Transaction} (h : perform tr s = .next t) (hi : s.Inv) : t.Inv := by
  rcases perform_next_cases h with ⟨p, w, i, -, -, hrun⟩ | ⟨p, w, -, rfl⟩ | ⟨-, rfl⟩ | ⟨-, hacc⟩
  · exact exec_inv hrun hi
  · exact illegal_inv hi p w
  · exact reset_inv.withHost s.pending s.returned (s.resets + 1)
  · exact hacc.inv hi

end Sys2Proof.Machine
end

section
/-! The invariant of reachable states (10_state.md R25 to R36, 60_exceptions.md R191, R192). -/

namespace Sys2Proof.Proofs.Invariant

open Sys2Proof.Machine

/-- Settles O50. -/
theorem invariantHoldsAtReset : Obligations.InvariantHoldsAtReset := reset_inv

/-- Settles O49: an idle step changes nothing, any other performs one transaction (`perform_inv`). -/
theorem invariantKeptByEveryStep : Obligations.InvariantKeptByEveryStep := by
  intro s t hi h
  cases hp : s.pending with
  | nil => rw [step_nil hp] at h; cases h; exact hi
  | cons tr rest =>
    rw [step_cons hp] at h
    exact perform_inv h (hi.withHost rest s.returned s.resets)

end Sys2Proof.Proofs.Invariant
end

section
/-! The register map as numbers (10_state.md R22): what each register reads as, what a write to each stores. -/

namespace Sys2Proof.Machine

/-! ## Fields of a register's value -/

/-- Two fields side by side, as a number. -/
theorem append_setWidth_toNat {m n : Nat} (a : BitVec m) (b : BitVec n) (h : m + n ≤ 32) :
    ((a ++ b).setWidth 32 : Word).toNat = a.toNat * 2 ^ n + b.toNat := by
  rw [BitVec.toNat_setWidth_of_le h, BitVec.toNat_append, Nat.shiftLeft_eq, Nat.mul_comm,
    ← Nat.two_pow_add_eq_or_of_lt b.isLt]

theorem statusValue_toNat (op code : BitVec 4) : (statusValue op code).toNat = op.toNat * 16 + code.toNat :=
  append_setWidth_toNat op code (by decide)

theorem pairValue_toNat (p : BytePair) : (pairValue p).toNat = p.2.toNat * 256 + p.1.toNat :=
  append_setWidth_toNat p.2 p.1 (by decide)

theorem ready_toNat (s : State) : (BitVec.ofBool s.ready).toNat = if s.bitIndex.val = 8 then 1 else 0 := by
  simp only [State.ready]
  split_ifs with h <;> simp [h]

/-- BSD_STATE: READY above BIT_INDEX above VALUE (10_state.md R35). -/
theorem bsdStateValue_toNat (s : State) :
    (bsdStateValue s).toNat =
      (if s.bitIndex.val = 8 then 1 else 0) * 4096 + s.bitIndex.val * 256 + s.value.toNat := by
  have hk := s.bitIndex.isLt
  have hfront : (BitVec.ofBool s.ready ++ BitVec.ofNat 4 s.bitIndex.val : BitVec 5).toNat =
      (if s.bitIndex.val = 8 then 1 else 0) * 16 + s.bitIndex.val := by
    rw [BitVec.toNat_append, Nat.shiftLeft_eq, Nat.mul_comm, ← Nat.two_pow_add_eq_or_of_lt (BitVec.isLt _), ready_toNat,
      BitVec.toNat_ofNat]
    omega
  rw [bsdStateValue, append_setWidth_toNat _ _ (by decide), hfront]
  omega

/-! ## Fields of a written word -/

theorem lowByte_eq (w : Word) : lowByte w = BitVec.ofNat 8 w.toNat :=
  BitVec.eq_of_toNat_eq (by simp [lowByte, BitVec.extractLsb'_toNat])

theorem lowHalf_eq (w : Word) : lowHalf w = BitVec.ofNat 16 w.toNat :=
  BitVec.eq_of_toNat_eq (by simp [lowHalf, BitVec.extractLsb'_toNat])

theorem lowPair_eq (w : Word) : lowPair w = (BitVec.ofNat 8 w.toNat, BitVec.ofNat 8 (w.toNat / 256)) :=
  Prod.ext (lowByte_eq w) (BitVec.eq_of_toNat_eq (by
    simp [lowPair, BitVec.extractLsb'_toNat, Nat.shiftRight_eq_div_pow]))

/-- A write to RX_LEN, with the stored field and its bound as numbers (10_state.md R25). -/
theorem writeRxLen_eq (s : State) (w : Word) :
    s.writeRxLen w =
      if w.toNat % 2 ^ 16 ≤ Config.rxCap then { s with rxLen := BitVec.ofNat 16 w.toNat } else s := by
  rw [State.writeRxLen, lowHalf_eq, BitVec.toNat_ofNat]

/-- A number that selects no register is none of the map's (10_state.md R22). -/
theorem toNat_notMem_of_reserved {n : Word} (h : regOfNumber n = none) :
    n.toNat ∉ [0x00, 0x01, 0x02, 0x03, 0x04, 0x05, 0x06, 0x08, 0x09, 0x0A, 0x0B, 0x0C, 0x0D, 0x0E, 0x10, 0x11, 0x12] := by
  intro hmem
  simp only [regOfNumber] at h
  split at h
  case h_18 => simp_all
  all_goals cases h

end Sys2Proof.Machine
end

section
/-! What commands leave behind: a search in OFFSET, a word delivered to a port in its status register, a claim in the message
slot. -/

namespace Sys2Proof.Machine

variable {s t : State}

/-- A search leaves the sentinel where no marker stands, and else an offset within RX_LEN (41_frame_sync.md R110,
42_codec_parse.md R121). -/
theorem search_offset {i : Instr} (hi : i = .findHeader ∨ i = .parse) (h : exec i s = .next t) :
    (s.findMarker s.rxLen.toNat = none ∧ t.offset = 0xFFFF#16) ∨
    ∃ off, s.findMarker s.rxLen.toNat = some off ∧ t.offset = BitVec.ofNat 16 off := by
  rcases hi with rfl | rfl
  · rcases execFindHeader_cases h with ⟨off, hoff, rfl⟩ | ⟨hno, rfl⟩
    · exact .inr ⟨off, hoff, rfl⟩
    · exact .inl ⟨hno, rfl⟩
  · rcases execParse_cases h with ⟨hno, rfl⟩ | ⟨off, hoff, ⟨c, -, rfl⟩ | ⟨-, -, -, rfl⟩⟩
    · exact .inl ⟨hno, rfl⟩
    · exact .inr ⟨off, hoff, rfl⟩
    · exact .inr ⟨off, hoff, rfl⟩

/-- The search finds nothing exactly where no marker stands within the valid bytes. -/
theorem findMarker_eq_none_iff_noMarker (s : State) : s.findMarker s.rxLen.toNat = none ↔ NoMarker s := by
  simp only [State.findMarker_eq_none, NoMarker, MarkerAt, ← State.markerAt_iff, Bool.not_eq_true]

/-- A word written to the codec port leaves its opcode in CODEC_STATUS.OP, and BSD_STATUS as it was (30_encoding.md
R72, R75). -/
theorem issue_codec_status {w : Word} (h : issue .codec w s = .next t) :
    t.codecOp = opField w ∧ t.bsdOp = s.bsdOp ∧ t.bsdCode = s.bsdCode := by
  rcases issue_cases h with ⟨i, hw, hrun⟩ | ⟨e, -, hill⟩
  · obtain ⟨hport, rfl⟩ := encode_of_decode hw
    obtain ⟨hd, -⟩ := exec_codec_keeps hport hrun.symm
    rw [opField_encode]
    exact ⟨(exec_codecRun hport hrun.symm).codecOp_eq, congrArg Decoder.op hd, congrArg Decoder.code hd⟩
  · cases hill; exact ⟨rfl, rfl, rfl⟩

/-- A word written to the decoder port leaves its opcode in BSD_STATUS.OP, and CODEC_STATUS as it was. -/
theorem issue_bsd_status {w : Word} (h : issue .bsd w s = .next t) :
    t.bsdOp = opField w ∧ t.codecOp = s.codecOp ∧ t.codecCode = s.codecCode := by
  rcases issue_cases h with ⟨i, hw, hrun⟩ | ⟨e, -, hill⟩
  · obtain ⟨hport, rfl⟩ := encode_of_decode hw
    obtain ⟨hop, hframe⟩ := exec_bsd_keeps hport hrun.symm
    rw [opField_encode]
    refine ⟨hop, ?_⟩
    rw [hframe]; exact ⟨rfl, rfl⟩
  · cases hill; exact ⟨rfl, rfl, rfl⟩

/-- The span of the slot's message, byte by byte (10_state.md R32). -/
theorem messageSpan_message (s : State) :
    messageSpan s.message =
      [s.msgLen, s.msgSrc, s.msgDst, s.msgCmd, s.msgArg] ++ byteRange s .payload 0 s.msgLen.toNat := by
  rw [byteRange, ← State.bytes_eq_map]; rfl

/-- A valid message that is stored leaves the slot owned and its message valid (10_state.md R33). -/
theorem storeMessage_valid {m : Message} (hlen : m.payload.length = m.len.toNat) (hv : MessageValid m)
    {op : BitVec 4} {c : CodecCode} (ht : t = (s.storeMessage m).codecDone op c) :
    t.owned = true ∧ t.msgCks = Config.ck ([t.msgLen, t.msgSrc, t.msgDst, t.msgCmd, t.msgArg] ++
      byteRange t .payload 0 t.msgLen.toNat) := by
  subst ht
  have hm : ((s.storeMessage m).codecDone op c).message = m := by
    rw [State.message_codecDone, State.message_storeMessage s hlen]
  refine ⟨rfl, ?_⟩
  rw [← messageSpan_message, hm]
  exact hv

end Sys2Proof.Machine
end

section
/-! The registers (10_state.md): what the host's reads and writes do, who else writes RX_LEN, OFFSET and the status registers,
and what Reset leaves. -/

namespace Sys2Proof.Proofs.Registers

open Sys2Proof.Machine

/-- Settles O9, register by register. -/
theorem registerReadReturnsFields : Obligations.RegisterReadReturnsFields := by
  intro s n rest hp
  refine ⟨numberValue n s, step_cons hp, ?_⟩
  simp only [numberValue]
  cases hr : regOfNumber n with
  | none =>
    have hres := toNat_notMem_of_reserved hr
    show (0#32).toNat = _
    split
    case h_16 => rfl
    all_goals simp_all
  | some r =>
    obtain rfl := number_of_regOfNumber hr
    cases r with
    | codecStatus => exact statusValue_toNat _ _
    | bsdStatus => exact statusValue_toNat _ _
    | ckOut => exact pairValue_toNat _
    | msgCks => exact pairValue_toNat _
    | bsdState => exact bsdStateValue_toNat s
    | msgCtrl => cases h : s.owned <;> simp [registerValue, Reg.number, h]
    | codecCmd | bsdCmd => rfl
    | _ => exact BitVec.toNat_setWidth_of_le (by decide)

/-- Settles O10, register by register. -/
theorem registerWriteStoresFieldOrNothing : Obligations.RegisterWriteStoresFieldOrNothing := by
  intro s n w rest hp hcodec hbsd
  rw [step_cons hp]
  simp only [perform, writeNumber]
  cases hr : regOfNumber n with
  | none =>
    have hres := toNat_notMem_of_reserved hr
    show Host.Outcome.next (s.withPending rest) = _
    split
    case h_8 => rfl
    all_goals simp_all
  | some r =>
    obtain rfl := number_of_regOfNumber hr
    cases r with
    | codecCmd => exact absurd rfl hcodec
    | bsdCmd => exact absurd rfl hbsd
    | rxLen => exact congrArg Host.Outcome.next (writeRxLen_eq _ w)
    | msgCks => simp only [writeRegister, lowPair_eq]; rfl
    | msgLen | msgSrc | msgDst | msgCmd | msgArg => simp only [writeRegister, lowByte_eq]; rfl
    | _ => rfl

/-- Settles O11: a command keeps RX_LEN (`exec_rxLen`), a host access stays within RX_CAP (`HostAccess`). -/
theorem rxLenStaysWithinCapacity : Obligations.RxLenStaysWithinCapacity := by
  refine ⟨fun s w => congrArg Host.Outcome.next (writeRxLen_eq s w), fun i s t => exec_rxLen, Nat.zero_le _,
    fun s t hle h => ?_⟩
  cases hp : s.pending with
  | nil => rw [step_nil hp] at h; cases h; exact hle
  | cons tr rest =>
    rw [step_cons hp] at h
    rcases perform_next_cases h with ⟨p, w, i, -, -, hrun⟩ | ⟨p, w, -, rfl⟩ | ⟨-, rfl⟩ | ⟨-, hacc⟩
    · rw [exec_rxLen hrun]; exact hle
    · cases p <;> exact hle
    · exact Nat.zero_le _
    · rcases hacc.rxLen_cases with hrx | hrx
      · rw [hrx]; exact hle
      · exact hrx

/-- Settles O19: of the commands only the searches write OFFSET (`exec_codecRun`), and what they write is the search's result
(`search_offset`). -/
theorem offsetIsWrittenBySearchesOnly : Obligations.OffsetIsWrittenBySearchesOnly := by
  refine ⟨fun s t tr rest hp h hne => ?_, fun i s t hi h => ?_⟩
  · rw [step_cons hp] at h
    rcases perform_next_cases h with ⟨p, w, i, rfl, hw, hrun⟩ | ⟨p, w, -, rfl⟩ | ⟨rfl, -⟩ | ⟨-, hacc⟩
    · obtain ⟨rfl, rfl⟩ := encode_of_decode hw
      cases hport : i.port with
      | codec =>
        rcases (exec_codecRun hport hrun).offset_eq with rfl | rfl | hoff
        · exact .inl rfl
        · exact .inr (.inl rfl)
        · exact absurd hoff hne
      | bsd => rw [(exec_bsd_keeps hport hrun).2] at hne; exact absurd rfl hne
    · cases p <;> exact absurd rfl hne
    · exact .inr (.inr rfl)
    · rw [hacc.frame] at hne; exact absurd rfl hne
  · rcases search_offset hi h with ⟨hno, ht⟩ | ⟨off, hoff, ht⟩
    · exact .inl ⟨(findMarker_eq_none_iff_noMarker s).mp hno, ht⟩
    · obtain ⟨hval, hle, hmax⟩ := foundOffset_toNat hoff
      refine .inr ⟨fun hno => ?_, by rw [ht, hval]; exact hle, by rw [ht, hval]; exact hmax⟩
      rw [← findMarker_eq_none_iff_noMarker, hoff] at hno
      cases hno

/-- Settles O46: a write to one port (`issue_codec_status`, `issue_bsd_status`), to the other, or neither. -/
theorem statusIsWrittenByItsPortOnly : Obligations.StatusIsWrittenByItsPortOnly := by
  intro s t tr rest hp h hreset
  rw [step_cons hp] at h
  by_cases hcodec : ∃ w, tr = .regWrite 0x00#32 w
  · obtain ⟨w, rfl⟩ := hcodec
    obtain ⟨hop, hbsd⟩ := issue_codec_status h
    refine ⟨fun w' he => ?_, fun hno => absurd rfl (hno w), nofun, fun _ => hbsd⟩
    cases he; rw [hop, opField_toNat]
  by_cases hbsd : ∃ w, tr = .regWrite 0x10#32 w
  · obtain ⟨w, rfl⟩ := hbsd
    obtain ⟨hop, hcodec⟩ := issue_bsd_status h
    refine ⟨nofun, fun _ => hcodec, fun w' he => ?_, fun hno => absurd rfl (hno w)⟩
    cases he; rw [hop, opField_toNat]
  have hport : ∀ (p : Port) (w : Word), tr ≠ .regWrite p.register.number w := by
    intro p w he
    cases p with
    | codec => exact hcodec ⟨w, he⟩
    | bsd => exact hbsd ⟨w, he⟩
  rcases perform_next_cases h with ⟨p, w, i, he, -⟩ | ⟨p, w, he, -⟩ | ⟨he, -⟩ | ⟨-, hacc⟩
  · exact absurd he (hport p w)
  · exact absurd he (hport p w)
  · exact absurd he hreset
  · rw [hacc.frame]
    exact ⟨fun w he => absurd ⟨w, he⟩ hcodec, fun _ => ⟨rfl, rfl⟩, fun w he => absurd ⟨w, he⟩ hbsd, fun _ => ⟨rfl, rfl⟩⟩

/-- Settles O15: the reset state and the state after Reset hold the same values. -/
theorem resetStateValues : Obligations.ResetStateValues := by
  rintro r (rfl | ⟨s, h⟩)
  · exact ⟨rfl, rfl, rfl, rfl, rfl, rfl, rfl, rfl, rfl, rfl, rfl, rfl, rfl, rfl, rfl, rfl, rfl, rfl, rfl⟩
  · obtain rfl : s.hardReset = r := Host.Outcome.next.inj h
    exact ⟨rfl, rfl, rfl, rfl, rfl, rfl, rfl, rfl, rfl, rfl, rfl, rfl, rfl, rfl, rfl, rfl, rfl, rfl, rfl⟩

end Sys2Proof.Proofs.Registers
end

section
/-! The message slot (10_state.md R31 to R33): who claims and frees it, and what a claim leaves there. -/

namespace Sys2Proof.Proofs.Slot

open Sys2Proof.Machine

/-- Settles O45: a command changes OWNED as `exec_codecRun` says, and nothing else but Reset changes it. -/
theorem ownedChangesOnlyByClaimAndRelease : Obligations.OwnedChangesOnlyByClaimAndRelease := by
  intro s t tr rest hp h hne
  rw [step_cons hp] at h
  rcases perform_next_cases h with ⟨p, w, i, rfl, hw, hrun⟩ | ⟨p, w, -, rfl⟩ | ⟨rfl, rfl⟩ | ⟨-, hacc⟩
  · obtain ⟨hport, hword⟩ := encode_of_decode hw
    cases p with
    | codec =>
      rcases (exec_codecRun hport hrun).owned_cases with hsame | ⟨hown, hok, hclaim⟩ | ⟨hown, hok, rfl⟩
      · exact absurd hsame hne
      · refine .inl ⟨hown, hok, w, rfl, ?_⟩
        rcases hclaim with rfl | ⟨dst, reg, rdlen, rfl⟩
        · exact .inl hw
        · exact .inr ⟨dst, reg, rdlen, hw⟩
      · subst hword; exact .inr ⟨hown, .inr ⟨rfl, hok⟩⟩
    | bsd => rw [(exec_bsd_keeps hport hrun).2] at hne; exact absurd rfl hne
  · cases p <;> exact absurd rfl hne
  · exact .inr ⟨rfl, .inl rfl⟩
  · rw [hacc.frame] at hne; exact absurd rfl hne

/-- Settles O28: the message PARSE stores passed its checksum test, and BUILD_READ computes the checksum of the one it
stores. -/
theorem successLeavesValidOwnedMessage : Obligations.SuccessLeavesValidOwnedMessage := by
  rintro i s t (rfl | ⟨dst, reg, rdlen, rfl⟩) h hok
  · rcases execParse_cases h with ⟨-, rfl⟩ | ⟨off, -, ⟨c, hc, rfl⟩ | ⟨-, hck, -, ht⟩⟩
    · cases hok
    · cases hok; cases hc
    · rw [State.frameSpan_eq] at hck
      exact storeMessage_valid (s := { s with offset := BitVec.ofNat 16 off }) (frameMessage_payload_length s off) hck ht
  · rcases execBuildRead_cases h with ⟨-, rfl⟩ | ⟨-, -, rfl⟩ | ⟨-, -, ht⟩
    · cases hok
    · cases hok
    · exact storeMessage_valid (s := s) (m := builtRequest dst reg rdlen) rfl rfl ht

end Sys2Proof.Proofs.Slot
end

section
/-! What is no transaction of the block, and what a read returns (20_memory.md R55, R56). -/

namespace Sys2Proof.Machine

/-! ## Refusals -/

/-- A transaction of the block is never refused. -/
theorem perform_next_of_wellFormed {tr : Transaction} (hwf : tr.wellFormed = true) (s : State) :
    ∃ t, perform tr s = .next t := by
  cases tr with
  | regRead n => exact ⟨_, rfl⟩
  | regWrite n w => exact writeNumber_next n w s
  | bufRead sp i => exact ⟨_, if_pos (of_decide_eq_true hwf)⟩
  | bufWrite sp i b =>
    obtain ⟨hsp, hi⟩ : sp.hostWritable = true ∧ i < Config.capacity sp := by
      simpa [Transaction.wellFormed] using hwf
    exact ⟨_, (if_pos hsp).trans (if_pos hi)⟩
  | reset => exact ⟨_, rfl⟩

/-- What is no transaction of the block is always refused (92_eei_decisions.md D32; log entry 8). -/
theorem perform_refused_of_not_wellFormed {tr : Transaction} (hwf : tr.wellFormed = false) (s : State) :
    ∃ r, perform tr s = .refused r := by
  cases tr with
  | bufRead sp i => exact ⟨_, if_neg (of_decide_eq_false hwf)⟩
  | bufWrite sp i b =>
    simp only [perform]
    split_ifs with hsp hi
    · simp [Transaction.wellFormed, hsp, hi] at hwf
    · exact ⟨_, rfl⟩
    · exact ⟨_, rfl⟩
  | _ => cases hwf

/-- The transactions that are none of the block's: an index out of range, a host write to TXBUF (20_memory.md R56). -/
theorem wellFormed_eq_false_iff (tr : Transaction) :
    tr.wellFormed = false ↔
      ((∃ sp i, tr = .bufRead sp i ∧ Config.capacity sp ≤ i) ∨
       (∃ sp i b, tr = .bufWrite sp i b ∧ (sp = .txbuf ∨ Config.capacity sp ≤ i))) := by
  cases tr with
  | bufRead sp i => simp [Transaction.wellFormed]
  | bufWrite sp i b => cases sp <;> simp [Transaction.wellFormed, Space.hostWritable]
  | _ => simp [Transaction.wellFormed]

/-! ## Reads -/

/-- A read returns a value that no earlier read has an effect on, and changes the list of values only (20_memory.md R55). -/
theorem perform_read {tr : Transaction} (hr : tr.isRead = true) (hwf : tr.wellFormed = true) (s : State) :
    ∃ v : ReadValue, ∀ vs, perform tr { s with returned := vs } = .next { s with returned := vs ++ [v] } := by
  cases tr with
  | regRead n => exact ⟨.word (numberValue n s), fun vs => rfl⟩
  | bufRead sp i =>
    refine ⟨.byte (s.byte sp i), fun vs => ?_⟩
    simp only [perform, if_pos (of_decide_eq_true hwf : i < Config.capacity sp)]
    cases sp <;> rfl
  | _ => cases hr

end Sys2Proof.Machine
end

section
/-! What a command is deaf to: RXBUF at and beyond RX_LEN (20_memory.md R51) and the transactions to come (R57). -/

namespace Sys2Proof.Machine

/-- The same block with other bytes in RXBUF, another RX_LEN and another list of transactions to come. -/
def State.withInput (s : State) (m : Memory) (n : BitVec 16) (ts : List Transaction) : State :=
  { s with rxbuf := m, rxLen := n, pending := ts }

variable {s t : State}

/-! ## The message and the frames -/

/-- The message does not live in RXBUF: the slot holds its own copy (20_memory.md R60). -/
@[simp] theorem State.message_withInput (s : State) (m : Memory) (n : BitVec 16) (ts : List Transaction) :
    (s.withInput m n ts).message = s.message := by
  have hp : (s.withInput m n ts).bytes .payload 0 s.msgLen.toNat = s.bytes .payload 0 s.msgLen.toNat :=
    State.bytes_congr fun _ _ => rfl
  simp only [State.message, show (s.withInput m n ts).msgLen = s.msgLen from rfl, hp]
  rfl

/-- A frame that lies below index `n` is read from the bytes below `n` only (30_encoding.md R80). -/
theorem State.frameMessage_congr {n off : Nat} (h : ∀ k < n, t.byte .rxbuf k = s.byte .rxbuf k)
    (hfit : off + 9 + (s.frameLen off).toNat ≤ n) : t.frameMessage off = s.frameMessage off := by
  have hlen : t.frameLen off = s.frameLen off := h (off + 2) (by omega)
  have hpayload : t.bytes .rxbuf (off + 7) (s.frameLen off).toNat = s.bytes .rxbuf (off + 7) (s.frameLen off).toNat :=
    State.bytes_congr fun k hk => h _ (by omega)
  simp only [State.frameMessage, hlen, hpayload, h (off + 3) (by omega), h (off + 4) (by omega), h (off + 5) (by omega),
    h (off + 6) (by omega), h (off + 7 + (s.frameLen off).toNat) (by omega),
    h (off + 8 + (s.frameLen off).toNat) (by omega)]

/-! ## Commands -/

/-- PARSE looks at the length byte once 9 bytes are there, and at the rest of the frame once all of it is
(42_codec_parse.md R122, R123). -/
theorem execParse_withInput {m : Memory} {ts : List Transaction}
    (hm : ∀ k < s.rxLen.toNat, (s.withInput m s.rxLen ts).byte .rxbuf k = s.byte .rxbuf k)
    (h : execParse s = .next t) : execParse (s.withInput m s.rxLen ts) = .next (t.withInput m s.rxLen ts) := by
  simp only [execParse, show (s.withInput m s.rxLen ts).rxLen = s.rxLen from rfl, State.findMarker_congr hm,
    show (s.withInput m s.rxLen ts).owned = s.owned from rfl] at h ⊢
  cases hfind : s.findMarker s.rxLen.toNat with
  | none => simp only [hfind] at h ⊢; cases h; rfl
  | some off =>
    simp only [hfind] at h ⊢
    by_cases hmin : s.rxLen.toNat - off < Config.minFrame
    · rw [if_pos hmin] at h ⊢; cases h; rfl
    have h9 : Config.minFrame = 9 := rfl
    have hlen : (s.withInput m s.rxLen ts).frameLen off = s.frameLen off := hm (off + 2) (by omega)
    rw [if_neg hmin] at h ⊢
    rw [hlen]
    by_cases hshort : s.rxLen.toNat - off < Config.minFrame + (s.frameLen off).toNat
    · rw [if_pos hshort] at h ⊢; cases h; rfl
    have hframe := State.frameMessage_congr hm (off := off) (by omega)
    rw [if_neg hshort] at h ⊢
    simp only [State.frameSpan_eq, hframe] at h ⊢
    split_ifs at h ⊢ <;> cases h <;> rfl

/-- A command looks at no byte of RXBUF at or beyond RX_LEN and at no transaction to come, and leaves both alone. -/
theorem exec_withInput {i : Instr} {m : Memory} {ts : List Transaction}
    (hm : ∀ k < s.rxLen.toNat, (s.withInput m s.rxLen ts).byte .rxbuf k = s.byte .rxbuf k)
    (h : exec i s = .next t) : exec i (s.withInput m s.rxLen ts) = .next (t.withInput m s.rxLen ts) := by
  cases hp : i.port with
  | bsd =>
    obtain ⟨f, -, hf⟩ := exec_bsd_beside hp
    rw [hf] at h ⊢
    cases h; rfl
  | codec =>
    cases i with
    | findHeader =>
      simp only [exec, execFindHeader, show (s.withInput m s.rxLen ts).rxLen = s.rxLen from rfl,
        State.findMarker_congr hm] at h ⊢
      split at h <;> cases h <;> rfl
    | ckCompute =>
      have hvalid : (s.withInput m s.rxLen ts).bytes .rxbuf 0 s.rxLen.toNat = s.bytes .rxbuf 0 s.rxLen.toNat :=
        State.bytes_congr fun k hk => hm _ (by omega)
      cases h
      simp only [exec, execCkCompute, show (s.withInput m s.rxLen ts).rxLen = s.rxLen from rfl, hvalid]; rfl
    | parse => exact execParse_withInput hm h
    | serlen => cases h; rfl
    | setChecksum => cases h; simp only [exec, execSetChecksum, State.message_withInput]; rfl
    | serialize => cases h; simp only [exec, execSerialize, State.message_withInput]; rfl
    | buildRead dst reg rdlen =>
      simp only [exec, execBuildRead, show (s.withInput m s.rxLen ts).owned = s.owned from rfl] at h ⊢
      split_ifs at h ⊢ <;> cases h <;> rfl
    | release =>
      simp only [exec, execRelease, show (s.withInput m s.rxLen ts).owned = s.owned from rfl] at h ⊢
      split_ifs at h ⊢ <;> cases h <;> rfl
    | addBit b | checkParity b | bsdReset => cases hp

/-- A command leaves RXBUF, RX_LEN and the transactions to come as they were. -/
theorem exec_keeps_input {i : Instr} (h : exec i s = .next t) : t = t.withInput s.rxbuf s.rxLen s.pending :=
  Host.Outcome.next.inj (h.symm.trans (exec_withInput (m := s.rxbuf) (ts := s.pending) (fun _ _ => rfl) h))

end Sys2Proof.Machine
end

section
/-! A schedule of transactions (20_memory.md R57): no transaction looks at those to come, so the steps of a run perform them
one after another. -/

namespace Sys2Proof.Machine

/-- The outcome with other transactions to come in its next state. -/
def resultWithPending (ts : List Transaction) : Result → Result
  | .next t => .next (t.withPending ts)
  | .fault r => .fault r
  | .refused r => .refused r

variable {s t : State}

/-! ## The transactions to come have no effect -/

theorem exec_withPending (i : Instr) (s : State) (ts : List Transaction) :
    exec i (s.withPending ts) = resultWithPending ts (exec i s) := by
  obtain ⟨t, ht⟩ := exec_next i s
  have hrun := exec_withInput (m := s.rxbuf) (ts := ts) (fun _ _ => rfl) ht
  rw [ht, exec_keeps_input ht]
  exact hrun

theorem issue_withPending (p : Port) (w : Word) (s : State) (ts : List Transaction) :
    issue p w (s.withPending ts) = resultWithPending ts (issue p w s) := by
  simp only [issue]
  cases decode p w with
  | ok i => exact exec_withPending i s ts
  | error e => cases p <;> rfl

theorem writeNumber_withPending (n w : Word) (s : State) (ts : List Transaction) :
    writeNumber n w (s.withPending ts) = resultWithPending ts (writeNumber n w s) := by
  simp only [writeNumber]
  cases regOfNumber n with
  | none => rfl
  | some r =>
    cases r with
    | codecCmd => exact issue_withPending .codec w s ts
    | bsdCmd => exact issue_withPending .bsd w s ts
    | rxLen => simp only [writeRegister, State.writeRxLen]; split_ifs <;> rfl
    | _ => rfl

/-- One transaction does the same whatever is to come after it. -/
theorem perform_withPending (tr : Transaction) (s : State) (ts : List Transaction) :
    perform tr (s.withPending ts) = resultWithPending ts (perform tr s) := by
  cases tr with
  | regRead n => rfl
  | regWrite n w => exact writeNumber_withPending n w s ts
  | bufRead sp i => simp only [perform, State.byte_withPending]; split_ifs <;> rfl
  | bufWrite sp i b =>
    simp only [perform]
    split_ifs
    · cases sp <;> rfl
    · rfl
    · rfl
  | reset => rfl

/-- So does a sequence of transactions. -/
theorem performAll_withPending (trs : List Transaction) (s : State) (ts : List Transaction) :
    performAll trs (s.withPending ts) = resultWithPending ts (performAll trs s) := by
  induction trs generalizing s with
  | nil => rfl
  | cons tr trs ih =>
    simp only [performAll, perform_withPending]
    cases perform tr s with
    | next u => exact ih u
    | fault r => rfl
    | refused r => rfl

/-- A sequence of transactions leaves those to come as they were. -/
theorem performAll_pending {trs : List Transaction} (h : performAll trs s = .next t) : t.pending = s.pending := by
  have hself : Host.Outcome.next t = resultWithPending s.pending (.next t) :=
    h ▸ performAll_withPending trs s s.pending
  have ht : t = t.withPending s.pending := Host.Outcome.next.inj hself
  rw [ht, State.withPending_pending]

theorem perform_pending {tr : Transaction} (h : perform tr s = .next t) : t.pending = s.pending :=
  performAll_pending (trs := [tr]) (by simp only [performAll, h])

/-! ## Runs -/

/-- As many steps as there are transactions at the head of the list perform exactly these. -/
theorem run_eq_performAll (trs rest : List Transaction) (s : State) :
    Host.Core.run core trs.length (s.withPending (trs ++ rest)) = performAll trs (s.withPending rest) := by
  induction trs generalizing s with
  | nil => rfl
  | cons tr trs ih =>
    have hstep : step (s.withPending (tr :: trs ++ rest)) =
        resultWithPending (trs ++ rest) (perform tr (s.withPending rest)) :=
      (step_cons rfl).trans (perform_withPending tr (s.withPending rest) (trs ++ rest))
    simp only [performAll, List.length_cons]
    cases hperf : perform tr (s.withPending rest) with
    | next u =>
      rw [hperf] at hstep
      have hu : u.withPending rest = u := by
        rw [show rest = u.pending from (perform_pending hperf).symm]; rfl
      exact (core_run_next _ hstep).trans ((ih u).trans (by rw [hu]))
    | fault r => cases r
    | refused r => rw [hperf] at hstep; exact core_run_refused _ hstep

/-- A sequence of transactions of the block runs to its end. -/
theorem performAll_next {trs : List Transaction} (hwf : ∀ tr ∈ trs, tr.wellFormed = true) (s : State) :
    ∃ t, performAll trs s = .next t := by
  induction trs generalizing s with
  | nil => exact ⟨s, rfl⟩
  | cons tr trs ih =>
    obtain ⟨u, hu⟩ := perform_next_of_wellFormed (hwf tr List.mem_cons_self) s
    simp only [performAll, hu]
    exact ih (fun tr' h => hwf tr' (List.mem_cons_of_mem _ h)) u

/-- With no transaction to come the block idles for good. -/
theorem run_idle (hidle : s.pending = []) (k : Nat) : Host.Core.run core k s = .next s := by
  induction k with
  | zero => rfl
  | succ k ih => exact (core_run_next k (step_nil hidle)).trans ih

/-- What each transaction of a sequence keeps, the sequence keeps. -/
theorem performAll_keeps {α : Type} (f : State → α) {trs : List Transaction}
    (hkeep : ∀ tr ∈ trs, ∀ s t, perform tr s = .next t → f t = f s) (h : performAll trs s = .next t) : f t = f s := by
  induction trs generalizing s with
  | nil => cases h; rfl
  | cons tr trs ih =>
    simp only [performAll] at h
    cases hu : perform tr s with
    | next u =>
      rw [hu] at h
      calc f t = f u := ih (fun tr' hmem => hkeep tr' (List.mem_cons_of_mem _ hmem)) h
        _ = f s := hkeep tr List.mem_cons_self s u hu
    | fault r => cases r
    | refused r => rw [hu] at h; cases h

end Sys2Proof.Machine
end

section
/-! The column "writes" of 20_memory.md R51, as a frame for each command. -/

namespace Sys2Proof.Machine

/-- The state `s` with the fields that R51 lets the command write taken from `t`. -/
def withWritesOf (i : Instr) (s t : State) : State :=
  match i with
  | .findHeader => { s with codecOp := t.codecOp, codecCode := t.codecCode, offset := t.offset }
  | .ckCompute => { s with codecOp := t.codecOp, codecCode := t.codecCode, ckOut := t.ckOut }
  | .parse =>
    { s with
      codecOp := t.codecOp, codecCode := t.codecCode, offset := t.offset, msgLen := t.msgLen, msgSrc := t.msgSrc,
      msgDst := t.msgDst, msgCmd := t.msgCmd, msgArg := t.msgArg, msgCks := t.msgCks, owned := t.owned,
      payload := t.payload }
  | .serlen => { s with codecOp := t.codecOp, codecCode := t.codecCode, serLen := t.serLen }
  | .setChecksum => { s with codecOp := t.codecOp, codecCode := t.codecCode, msgCks := t.msgCks }
  | .serialize => { s with codecOp := t.codecOp, codecCode := t.codecCode, txbuf := t.txbuf, txLen := t.txLen }
  | .buildRead _ _ _ =>
    { s with
      codecOp := t.codecOp, codecCode := t.codecCode, msgLen := t.msgLen, msgSrc := t.msgSrc, msgDst := t.msgDst,
      msgCmd := t.msgCmd, msgArg := t.msgArg, msgCks := t.msgCks, owned := t.owned, payload := t.payload }
  | .release => { s with codecOp := t.codecOp, codecCode := t.codecCode, owned := t.owned }
  | .addBit _ => { s with bsdOp := t.bsdOp, bsdCode := t.bsdCode, value := t.value, bitIndex := t.bitIndex }
  | .checkParity _ => { s with bsdOp := t.bsdOp, bsdCode := t.bsdCode }
  | .bsdReset => { s with bsdOp := t.bsdOp, bsdCode := t.bsdCode, value := t.value, bitIndex := t.bitIndex }

/-- A command writes what R51 lets it write, and nothing else of the state. -/
theorem exec_frame {i : Instr} {s t : State} (h : exec i s = .next t) : t = withWritesOf i s t := by
  cases i with
  | findHeader => rcases execFindHeader_cases h with ⟨off, -, rfl⟩ | ⟨-, rfl⟩ <;> rfl
  | parse => rcases execParse_cases h with ⟨-, rfl⟩ | ⟨off, -, ⟨c, -, rfl⟩ | ⟨-, -, -, rfl⟩⟩ <;> rfl
  | buildRead dst reg rdlen => rcases execBuildRead_cases h with ⟨-, rfl⟩ | ⟨-, -, rfl⟩ | ⟨-, -, rfl⟩ <;> rfl
  | release => rcases execRelease_cases h with ⟨-, rfl⟩ | ⟨-, rfl⟩ <;> rfl
  | addBit b => rcases execAddBit_cases h with ⟨-, rfl⟩ | ⟨-, -, rfl⟩ <;> rfl
  | checkParity b => rcases execCheckParity_cases h with ⟨-, rfl⟩ | ⟨-, -, rfl⟩ | ⟨-, -, rfl⟩ <;> rfl
  | ckCompute | serlen | setChecksum | serialize | bsdReset => cases h; rfl

end Sys2Proof.Machine
end

section
/-! The host's writes to one side of a copy (20_memory.md R60): what they leave of the other. -/

namespace Sys2Proof.Machine

variable {s t : State}

/-- A write to RXBUF or RX_LEN changes these two only. -/
theorem perform_rx_write {tr : Transaction}
    (htr : (∃ i b, tr = .bufWrite .rxbuf i b) ∨ ∃ w, tr = .regWrite Reg.rxLen.number w) (h : perform tr s = .next t) :
    t = s.withInput t.rxbuf t.rxLen s.pending := by
  rcases htr with ⟨i, b, rfl⟩ | ⟨w, rfl⟩
  · simp only [perform, Space.hostWritable, if_true] at h
    split_ifs at h
    cases h; rfl
  · simp only [perform, writeNumber_number, writeRegister] at h
    cases h
    rcases writeRxLen_cases s w with ⟨-, hw⟩ | hw <;> rw [hw] <;> rfl

/-- A write to PAYLOAD or a message register leaves TX_LEN and the bytes of the other two buffers. -/
theorem perform_message_write {tr : Transaction}
    (htr : (∃ i b, tr = .bufWrite .payload i b) ∨ ∃ n w, tr = .regWrite n w ∧ 0x08 ≤ n.toNat ∧ n.toNat ≤ 0x0D)
    (h : perform tr s = .next t) : t.txLen = s.txLen ∧ ∀ sp ≠ .payload, ∀ j, t.byte sp j = s.byte sp j := by
  rcases htr with ⟨i, b, rfl⟩ | ⟨n, w, rfl, hlo, hhi⟩
  · simp only [perform, Space.hostWritable, if_true] at h
    split_ifs at h
    cases h
    exact ⟨rfl, fun sp hsp j => (s.byte_writeByte .payload i b sp j).trans (if_neg fun he => hsp he.1)⟩
  · rcases writeNumber_cases (h : writeNumber n w s = .next t) with ⟨p, rfl, -⟩ | ⟨-, -, u, hu, -, hframe⟩
    · cases p with
      | codec => exact absurd hlo (by decide)
      | bsd => exact absurd hhi (by decide)
    · cases hu
      rw [hframe]
      exact ⟨rfl, fun sp _ j => State.byte_congr (by cases sp <;> rfl) rfl j⟩

end Sys2Proof.Machine
end

section
/-! The host's transactions and the commands' accesses (20_memory.md): what is refused, what reads and writes change, the
order of a run, and what each command looks at and writes. -/

namespace Sys2Proof.Proofs.Memory

open Sys2Proof.Machine

/-- Settles O6: the port's register number selects the port (`writeNumber_port`), and the decoded command is run there. -/
theorem stepRunsDecodedCommand : Obligations.StepRunsDecodedCommand := by
  intro s p w i rest hp hdec
  rw [step_cons hp]
  simp only [perform, writeNumber_port, issue, hdec]
  rfl

/-- Settles O12: `State.byte_writeByte` says what every byte is after the write. -/
theorem hostBufferAccess : Obligations.HostBufferAccess := by
  refine ⟨fun s sp i b hsp hi => ⟨s.writeByte sp i b, ?_, s.byte_writeByte sp i b, ?_⟩, fun s sp i hi => if_pos hi⟩
  · cases sp with
    | txbuf => exact absurd rfl hsp
    | rxbuf | payload => exact if_pos hi
  · cases sp with
    | txbuf => exact absurd rfl hsp
    | rxbuf | payload => rfl

/-- Settles O13: a transaction is well formed and answers a next state, or is not and is refused. -/
theorem refusedExactlyWhenIllFormed : Obligations.RefusedExactlyWhenIllFormed := by
  intro tr s
  rw [← wellFormed_eq_false_iff]
  cases hwf : tr.wellFormed with
  | true =>
    obtain ⟨t, ht⟩ := perform_next_of_wellFormed hwf s
    simp [ht]
  | false =>
    obtain ⟨r, hr⟩ := perform_refused_of_not_wellFormed hwf s
    simp [hr]

/-- Settles O14, by induction on the number of reads, from any list of values returned before. -/
theorem readsHaveNoSideEffect : Obligations.ReadsHaveNoSideEffect := by
  intro tr s k hr hwf
  obtain ⟨v, hv⟩ := perform_read hr hwf s
  have hreads : ∀ vs, performAll (List.replicate k tr) { s with returned := vs } =
      .next { s with returned := vs ++ List.replicate k v } := by
    induction k with
    | zero => intro vs; simp [performAll]
    | succ k ih => intro vs; simp [List.replicate_succ, performAll, hv, ih]
  exact ⟨v, hreads s.returned⟩

/-- Settles O29: of RXBUF a command looks at the bytes below RX_LEN only (`exec_withInput`). -/
theorem bytesBeyondRxLenNeverMatter : Obligations.BytesBeyondRxLenNeverMatter := by
  intro i s m hm
  obtain ⟨t, ht⟩ := exec_next i s
  have hrun := exec_withInput (ts := s.pending) hm ht
  refine ⟨t, ht, hrun.trans ?_⟩
  rw [exec_keeps_input ht]
  rfl

/-- Settles O47: every clause is read off the command's frame (`exec_frame`). -/
theorem commandsWriteOnlyTheirOwn : Obligations.CommandsWriteOnlyTheirOwn := by
  intro i s t h
  rw [exec_frame h]
  cases i <;> simp [withWritesOf, Instr.port]

/-- Settles O52: a run is the sequence of its transactions (`run_eq_performAll`), which the list to come has no effect on
(`performAll_withPending`). -/
theorem stepsPerformScheduleInOrder : Obligations.StepsPerformScheduleInOrder := by
  refine fun ts rest s => ⟨run_eq_performAll ts rest s, fun t ht => ⟨performAll_pending ht, ?_⟩⟩
  have hself := performAll_withPending ts (s.withPending rest) s.pending
  exact hself.trans (congrArg (resultWithPending s.pending) ht)

/-- Settles O51: no transaction of the schedule is refused (`performAll_next`), and at its end nothing is to come. -/
theorem safeScheduleRunsToItsEnd : Obligations.SafeScheduleRunsToItsEnd := by
  intro s hsafe
  obtain ⟨t, ht⟩ := performAll_next hsafe (s.withPending [])
  have hidle : t.pending = [] := performAll_pending ht
  have hrun := run_eq_performAll s.pending [] s
  rw [List.append_nil] at hrun
  exact ⟨t, hrun.trans ht, hidle, run_idle hidle⟩

/-- Settles O53: each write of the sequence keeps the other side of the copy (`perform_rx_write`,
`perform_message_write`). -/
theorem copiesAreDecoupled : Obligations.CopiesAreDecoupled := by
  refine ⟨fun ts s t htrs h => ⟨?_, ?_⟩, fun ts s t htrs h => ⟨?_, fun i => ⟨?_, ?_⟩⟩⟩
  · refine performAll_keeps State.message (fun tr hmem u v hv => ?_) h
    rw [perform_rx_write (htrs tr hmem) hv, State.message_withInput]
  · refine performAll_keeps State.owned (fun tr hmem u v hv => ?_) h
    rw [perform_rx_write (htrs tr hmem) hv]; rfl
  · exact performAll_keeps State.txLen (fun tr hmem u v hv => (perform_message_write (htrs tr hmem) hv).1) h
  · exact performAll_keeps (State.byte · .rxbuf i)
      (fun tr hmem u v hv => (perform_message_write (htrs tr hmem) hv).2 .rxbuf nofun i) h
  · exact performAll_keeps (State.byte · .txbuf i)
      (fun tr hmem u v hv => (perform_message_write (htrs tr hmem) hv).2 .txbuf nofun i) h

end Sys2Proof.Proofs.Memory
end

section
/-! The opcode map's rows (30_encoding.md R70 to R74): no two share an opcode, so the row a word matches is the one that decodes
it; every command's word matches the row that builds it. -/

namespace Sys2Proof

open Machine

/-! ## Rows -/

/-- The opcode a row answers to: bits [31:28] of its pattern (R72). -/
def Row.opcode (r : Row) : BitVec 4 := opField r.matchBits

/-- The rows' opcodes are distinct (R73). -/
theorem opcodeMap_opcode_nodup : (opcodeMap.map Row.opcode).Nodup := by decide

/-- Every row tests all of bits [31:28] (R72). -/
theorem opField_mask {r : Row} (hr : r ∈ opcodeMap) : opField r.mask = BitVec.allOnes 4 := by
  revert r; decide

/-- A word has the opcode of every row it matches. -/
theorem opField_of_rowMatches {p : Port} {w : Word} {r : Row} (hr : r ∈ opcodeMap) (h : rowMatches p w r = true) :
    opField w = r.opcode := by
  simp only [rowMatches, Bool.and_eq_true, decide_eq_true_eq] at h
  have hmask : opField (w &&& r.mask) = opField w &&& opField r.mask := BitVec.extractLsb'_and
  rw [Row.opcode, ← h.2, hmask, opField_mask hr, BitVec.and_allOnes]

/-- At most one row matches a word. -/
theorem row_unique {p : Port} {w : Word} {r r' : Row} (hr : r ∈ opcodeMap) (hr' : r' ∈ opcodeMap)
    (h : rowMatches p w r = true) (h' : rowMatches p w r' = true) : r = r' :=
  List.inj_on_of_nodup_map opcodeMap_opcode_nodup hr hr'
    ((opField_of_rowMatches hr h).symm.trans (opField_of_rowMatches hr' h'))

/-! ## Decoding by a row -/

/-- The row a word matches is the one that decodes it, wherever it stands in the map. -/
theorem decode_of_rowMatches {p : Port} {w : Word} {r : Row} (hr : r ∈ opcodeMap) (h : rowMatches p w r = true) :
    decode p w = .ok (r.build w) := by
  obtain ⟨r', hfind⟩ := Option.isSome_iff_exists.mp (List.find?_isSome.mpr ⟨r, hr, h⟩)
  have hsame : r' = r := row_unique (List.mem_of_find?_eq_some hfind) hr (List.find?_some hfind) h
  simp only [decode, hfind, hsame]

/-- A word is legal on a port exactly where a row matches it (R72). -/
theorem legal_iff_rowMatches {p : Port} {w : Word} :
    (∃ i, decode p w = .ok i) ↔ ∃ r ∈ opcodeMap, rowMatches p w r = true := by
  refine ⟨fun ⟨i, hi⟩ => ?_, fun ⟨r, hr, h⟩ => ⟨_, decode_of_rowMatches hr h⟩⟩
  simp only [decode] at hi
  split at hi
  · rename_i r hfind
    exact ⟨r, List.mem_of_find?_eq_some hfind, List.find?_some hfind⟩
  · cases hi

/-! ## The legal words as numbers -/

/-- The legal words of CODEC_CMD (R74). -/
theorem codec_legal_iff (w : Word) :
    (∃ i, decode .codec w = .ok i) ↔
      (w.toNat ∈ [0x10000000, 0x20000000, 0x30000000, 0x40000000, 0x50000000, 0x60000000, 0x80000000] ∨
       (0x70000000 ≤ w.toNat ∧ w.toNat ≤ 0x7FFFFFFF)) := by
  rw [legal_iff_rowMatches]
  simp only [opcodeMap, List.mem_cons, List.not_mem_nil, exists_eq_or_imp, exists_eq_left, rowMatches_full, rowMatches_op,
    rowMatches_bit, Bool.and_eq_true, decide_eq_true_eq, reduceCtorEq, true_and, false_and, or_false,
    BitVec.toNat_ofNat]
  omega

/-- The legal words of BSD_CMD (R74). -/
theorem bsd_legal_iff (w : Word) :
    (∃ i, decode .bsd w = .ok i) ↔
      w.toNat ∈ [0xA0000000, 0xA0000001, 0xB0000000, 0xB0000001, 0xC0000000] := by
  rw [legal_iff_rowMatches]
  simp only [opcodeMap, List.mem_cons, List.not_mem_nil, exists_eq_or_imp, exists_eq_left, rowMatches_full, rowMatches_op,
    rowMatches_bit, Bool.and_eq_true, decide_eq_true_eq, reduceCtorEq, true_and, false_and, false_or, or_false,
    BitVec.toNat_ofNat]
  omega

/-- A word that no command decodes from is answered with an error. -/
theorem decode_error_of_not_legal {p : Port} {w : Word} (h : ¬ ∃ i, decode p w = .ok i) :
    ∃ e, decode p w = .error e := by
  cases hd : decode p w with
  | ok i => exact absurd ⟨i, hd⟩ h
  | error e => exact ⟨e, rfl⟩

/-! ## Decoding an encoded command -/

/-- Every command's word matches a row of its port, which builds the command from it. -/
theorem encode_row (i : Instr) : Laws.EncodingRow.Statement i := by
  cases i with
  | findHeader => exact Laws.EncodingRow.findHeader
  | ckCompute => exact Laws.EncodingRow.ckCompute
  | parse => exact Laws.EncodingRow.parse
  | serlen => exact Laws.EncodingRow.serlen
  | setChecksum => exact Laws.EncodingRow.setChecksum
  | serialize => exact Laws.EncodingRow.serialize
  | buildRead dst reg rdlen => exact Laws.EncodingRow.buildRead dst reg rdlen
  | release => exact Laws.EncodingRow.release
  | addBit b => exact Laws.EncodingRow.addBit b
  | checkParity b => exact Laws.EncodingRow.checkParity b
  | bsdReset => exact Laws.EncodingRow.bsdReset

@[simp] theorem decode_encode (i : Instr) : decode i.port (encode i) = .ok i := by
  obtain ⟨r, hr, hmatch, hbuild⟩ := encode_row i
  rw [decode_of_rowMatches hr hmatch, hbuild]

/-- A command's opcode belongs to its port (R73). -/
theorem opcodePort_opcode (i : Instr) : opcodePort i.opcode = some i.port := by
  cases i <;> rfl

/-- A command's word is legal on no port but its own: its opcode names the port. -/
theorem port_eq_of_decode_encode {p : Port} {i j : Instr} (h : decode p (encode i) = .ok j) : p = i.port := by
  obtain ⟨hport, hword⟩ := encode_of_decode h
  have hop : j.opcode = i.opcode := by rw [← opField_encode, hword, opField_encode]
  have hsome : some j.port = some i.port := by rw [← opcodePort_opcode, hop, opcodePort_opcode]
  exact hport.symm.trans (Option.some.inj hsome)

theorem decode_encode_otherPort {p : Port} {i : Instr} (hp : p ≠ i.port) : ∃ e, decode p (encode i) = .error e :=
  decode_error_of_not_legal fun ⟨_, h⟩ => hp (port_eq_of_decode_encode h)

/-- The placement functions write a command's word to the command's port (log entry 11). -/
theorem portOfWord_encode (i : Instr) : portOfWord (encode i) = i.port := by
  cases hp : i.port with
  | bsd => rw [portOfWord, ← hp, decode_encode]
  | codec =>
    obtain ⟨e, he⟩ := decode_encode_otherPort (p := .bsd) (i := i) (by simp [hp])
    rw [portOfWord, he]

/-- A 32-bit table word is the word itself. -/
theorem tableWord_toNat (w : Word) : tableWord 32 w.toNat = w := by
  rw [tableWord, Nat.mod_eq_of_lt w.isLt, BitVec.ofNat_toNat, BitVec.setWidth_eq]

theorem decodeTableWord_encode (i : Instr) : decodeTableWord 32 (encode i).toNat = some i := by
  rw [decodeTableWord, tableWord_toNat, portOfWord_encode, decode_encode,
    if_pos (Nat.mod_lt _ (Nat.two_pow_pos 32))]

/-! ## What a command line of a script writes (R90) -/

/-- The word with the number of a command's word is that word. -/
theorem ofNat_eq_encode {n : Nat} {i : Instr} (h : (encode i).toNat = n) : BitVec.ofNat 32 n = encode i := by
  rw [← h, BitVec.ofNat_toNat, BitVec.setWidth_eq]

end Sys2Proof

namespace Sys2Proof.Machine

/-- An illegal word delivered by a register write to its port (R75). -/
theorem perform_illegal {p : Port} {w : Word} (h : ¬ ∃ i, decode p w = .ok i) (s : State) :
    perform (.regWrite p.register.number w) s = .next (s.illegal p w) := by
  obtain ⟨e, he⟩ := decode_error_of_not_legal h
  simp only [perform, writeNumber_port, issue, he]

/-- `OP` of a word as the number `w[31:28]`. -/
theorem opField_eq_ofNat (w : Word) : opField w = BitVec.ofNat 4 (w.toNat / 2 ^ 28) := by
  rw [← opField_toNat, BitVec.ofNat_toNat, BitVec.setWidth_eq]

end Sys2Proof.Machine
end

section
/-! The encoding (30_encoding.md): the decoder and the encoder are each other's inverses, the legal words of each port, the
illegal word's effect, the script's command lines. -/

namespace Sys2Proof.Proofs.Encoding

open Sys2Proof.Machine

/-- Settles O1: the word matches its command's row (`decode_encode`), and its opcode names the port
(`decode_encode_otherPort`). -/
theorem encodedCommandDecodesToItself : Obligations.EncodedCommandDecodesToItself := by
  intro i
  exact ⟨decode_encode i, fun _ hp => decode_encode_otherPort hp, decodeTableWord_encode i⟩

/-- Settles O2: each row's pattern and operand fields cover the whole word (`encode_of_decode`). -/
theorem legalWordEncodesItsCommand : Obligations.LegalWordEncodesItsCommand := by
  intro p w i h
  exact encode_of_decode h

/-- Settles O3: a word is legal where a row matches it, and the rows of each port are the list. -/
theorem legalWordsAreExactlyTheListed : Obligations.LegalWordsAreExactlyTheListed := by
  intro w
  exact ⟨codec_legal_iff w, bsd_legal_iff w⟩

/-- Settles O4: a matching word has the row's opcode (`opField_of_rowMatches`), and no two rows share theirs. -/
theorem atMostOneRowMatches : Obligations.AtMostOneRowMatches := by
  refine (List.pairwise_map.mp opcodeMap_opcode_nodup).imp_of_mem fun hr hr' hne p w ⟨h, h'⟩ => ?_
  exact hne ((opField_of_rowMatches hr h).symm.trans (opField_of_rowMatches hr' h'))

/-- Settles O8: no word of R75's kinds is one of its port's legal words (`codec_legal_iff`, `bsd_legal_iff`), so the write
reports it and keeps the rest (`perform_illegal`). -/
theorem illegalWordWritesStatusOnly : Obligations.IllegalWordWritesStatusOnly := by
  intro s p w hkind
  have hillegal : ¬ ∃ i, decode p w = .ok i := by
    cases p with
    | codec =>
      rw [codec_legal_iff]
      simp only [List.mem_cons, List.not_mem_nil, or_false, reduceCtorEq, false_and, false_or, true_and] at hkind ⊢
      omega
    | bsd =>
      rw [bsd_legal_iff]
      simp only [List.mem_cons, List.not_mem_nil, or_false, reduceCtorEq, false_and, false_or, true_and] at hkind ⊢
      omega
  rw [perform_illegal hillegal s, ← opField_eq_ofNat]
  cases p with
  | codec => rfl
  | bsd => rfl

/-- Settles O5: each of the words is its command's word (`decode_encode`). -/
theorem sampleWordsDecode : Obligations.SampleWordsDecode :=
  ⟨decode_encode .findHeader, decode_encode .parse, decode_encode (.buildRead 0x20#8 0x34#8 2#12), decode_encode .release,
    decode_encode (.addBit true), decode_encode (.checkParity false), decode_encode .bsdReset⟩

/-- Settles O54: each line's number is that of its command's word (`ofNat_eq_encode`). -/
theorem scriptLinesIssueTheirCommands : Obligations.ScriptLinesIssueTheirCommands := by
  intro s
  refine ⟨?_, fun dst reg rdlen => ?_, fun b => ?_, fun b => ?_⟩
  · simp only [List.forall_mem_cons]
    exact ⟨rfl, rfl, rfl, rfl, rfl, rfl, rfl, rfl, nofun⟩
  · rw [expandLine, ofNat_eq_encode (encode_buildRead_toNat dst reg rdlen)]; rfl
  · rw [expandLine, ofNat_eq_encode (encode_addBit_toNat b)]; rfl
  · rw [expandLine, ofNat_eq_encode (encode_checkParity_toNat b)]; rfl

end Sys2Proof.Proofs.Encoding
end

section
/-! What CK_COMPUTE does, its input spelled as the byte range of the statements (40_checksum.md R102). -/

namespace Sys2Proof.Machine

theorem exec_ckCompute (s : State) :
    exec .ckCompute s =
      .next { s with ckOut := Config.ck (byteRange s .rxbuf 0 s.rxLen.toNat), codecOp := 2#4, codecCode := .ok } := by
  rw [byteRange, ← State.bytes_eq_map]; rfl

theorem ckOut_of_exec_ckCompute {s t : State} (h : exec .ckCompute s = .next t) :
    t.ckOut = Config.ck (s.bytes .rxbuf 0 s.rxLen.toNat) := by
  cases h; rfl

end Sys2Proof.Machine
end

section
/-! The Checksum Utility (40_checksum.md): what CK_COMPUTE leaves in CK_OUT, and on what it depends. -/

namespace Sys2Proof.Proofs.Checksum

open Sys2Proof.Machine

/-- Settles O21: the command's input to CK is the valid bytes (`ckOut_of_exec_ckCompute`), and those are the same in both
states (`State.bytes_congr`). -/
theorem ckComputeIsDeterministic : Obligations.CkComputeIsDeterministic := by
  intro s s' t t' hlen hbytes h h'
  have hvalid : s'.bytes .rxbuf 0 s.rxLen.toNat = s.bytes .rxbuf 0 s.rxLen.toNat :=
    State.bytes_congr fun k hk => hbytes _ (by omega)
  rw [ckOut_of_exec_ckCompute h', ckOut_of_exec_ckCompute h, hlen, hvalid]

/-- Settles O20: the word is the one CK_COMPUTE encodes to (`decode_encode`), and the command does what `exec_ckCompute`
says. -/
theorem ckComputeOverValidBytes : Obligations.CkComputeOverValidBytes :=
  ⟨decode_encode .ckCompute, exec_ckCompute⟩

end Sys2Proof.Proofs.Checksum
end

section
/-! FIND_HEADER in the words of the statements (41_frame_sync.md R110, R111): what the command does where a first marker
stands, and where none does. -/

namespace Sys2Proof.Machine

/-- The search finds exactly the first marker within the valid bytes. -/
theorem findMarker_eq_some_iff_firstMarker (s : State) (off : Nat) :
    s.findMarker s.rxLen.toNat = some off ↔ FirstMarker s off := by
  simp only [State.findMarker_eq_some, FirstMarker, MarkerAt, ← State.markerAt_iff, Bool.not_eq_true]

theorem exec_findHeader_of_firstMarker {s : State} {off : Nat} (h : FirstMarker s off) :
    exec .findHeader s = .next { s with offset := BitVec.ofNat 16 off, codecOp := 1#4, codecCode := .ok } := by
  have hfind := (findMarker_eq_some_iff_firstMarker s off).mpr h
  simp only [exec, execFindHeader, hfind]; rfl

theorem exec_findHeader_of_noMarker {s : State} (h : NoMarker s) :
    exec .findHeader s = .next { s with offset := 0xFFFF#16, codecOp := 1#4, codecCode := .notFound } := by
  have hfind := (findMarker_eq_none_iff_noMarker s).mpr h
  simp only [exec, execFindHeader, hfind]; rfl

/-- The 16 bits of OFFSET hold the index of a first marker. -/
theorem firstMarker_offset_toNat {s : State} {off : Nat} (h : FirstMarker s off) : (BitVec.ofNat 16 off).toNat = off :=
  (foundOffset_toNat ((findMarker_eq_some_iff_firstMarker s off).mpr h)).1

end Sys2Proof.Machine
end

section
/-! The host appends one byte to the valid bytes of RXBUF (41_frame_sync.md R114): the two transactions that do it, the
state they leave, and where a marker can then stand. -/

namespace Sys2Proof.Machine

/-! ## The transactions -/

/-- A byte written by the host within RXBUF's size (20_memory.md R56). -/
theorem perform_bufWrite_rxbuf {i : Nat} (hi : i < Config.rxCap) (b : Byte) (s : State) :
    perform (.bufWrite .rxbuf i b) s = .next (s.writeByte .rxbuf i b) := by
  have hsp : Space.rxbuf.hostWritable = true := rfl
  have hcap : i < Config.capacity .rxbuf := hi
  simp only [perform, hsp, hcap, if_true]

/-- A length written to RX_LEN within RX_CAP (10_state.md R25). -/
theorem perform_regWrite_rxLen {n : Nat} (hn : n ≤ Config.rxCap) (s : State) :
    perform (.regWrite Reg.rxLen.number (BitVec.ofNat 32 n)) s = .next { s with rxLen := BitVec.ofNat 16 n } := by
  have hcap := rxCap_bounds.2
  have hval : (BitVec.ofNat 32 n).toNat = n := by rw [BitVec.toNat_ofNat]; omega
  simp only [perform, writeNumber_number, writeRegister, writeRxLen_eq, hval]
  rw [if_pos (by omega)]

/-- A command's word written to its port runs the command (30_encoding.md R72). -/
theorem perform_encode (i : Instr) (s : State) : perform (.regWrite i.port.register.number (encode i)) s = exec i s := by
  simp only [perform, writeNumber_port, issue, decode_encode]

theorem performAll_singleton (tr : Transaction) (s : State) : performAll [tr] s = perform tr s := by
  cases h : perform tr s <;> simp only [performAll, h]

/-! ## The state they leave -/

/-- The state after the host appended a byte: the byte at index RX_LEN, and RX_LEN raised by one. -/
def State.appendRx (s : State) (b : Byte) : State :=
  { s.writeByte .rxbuf s.rxLen.toNat b with rxLen := BitVec.ofNat 16 (s.rxLen.toNat + 1) }

/-- The host appends a byte by a write to RXBUF and one to RX_LEN. -/
theorem performAll_appendRx {s : State} (hfit : s.rxLen.toNat + 1 ≤ Config.rxCap) (b : Byte) (ts : List Transaction) :
    performAll (.bufWrite .rxbuf s.rxLen.toNat b ::
      .regWrite Reg.rxLen.number (BitVec.ofNat 32 (s.rxLen.toNat + 1)) :: ts) s = performAll ts (s.appendRx b) := by
  simp only [performAll, perform_bufWrite_rxbuf hfit, perform_regWrite_rxLen hfit]
  rfl

theorem State.appendRx_rxLen_toNat {s : State} (hfit : s.rxLen.toNat + 1 ≤ Config.rxCap) (b : Byte) :
    (s.appendRx b).rxLen.toNat = s.rxLen.toNat + 1 := by
  have hcap := rxCap_bounds.2
  rw [State.appendRx, BitVec.toNat_ofNat]; omega

theorem State.byte_appendRx (s : State) (b : Byte) (i : Nat) :
    (s.appendRx b).byte .rxbuf i = if i = s.rxLen.toNat then b else s.byte .rxbuf i := by
  have hwrite := s.byte_writeByte .rxbuf s.rxLen.toNat b .rxbuf i
  simp only [true_and] at hwrite
  exact hwrite

/-! ## The markers -/

/-- A byte appended makes or breaks no marker among the bytes that were valid before. -/
theorem markerAt_appendRx_iff {s : State} {i : Nat} (hi : i + 1 < s.rxLen.toNat) (b : Byte) :
    MarkerAt (s.appendRx b) i ↔ MarkerAt s i := by
  simp only [MarkerAt, State.byte_appendRx, if_neg (show i ≠ s.rxLen.toNat by omega), if_neg hi.ne]

/-- 0xA5 appended behind a last valid byte 0x5A completes a marker there, the first one where none stood before. -/
theorem firstMarker_appendRx {s : State} (hno : NoMarker s) (hpos : 1 ≤ s.rxLen.toNat)
    (hfit : s.rxLen.toNat + 1 ≤ Config.rxCap) (hlast : s.byte .rxbuf (s.rxLen.toNat - 1) = 0x5A#8) :
    FirstMarker (s.appendRx 0xA5#8) (s.rxLen.toNat - 1) := by
  refine ⟨?_, ⟨?_, ?_⟩, fun j hj => ?_⟩
  · rw [State.appendRx_rxLen_toNat hfit]; omega
  · rw [State.byte_appendRx, if_neg (by omega), hlast]
  · rw [State.byte_appendRx, if_pos (by omega)]
  · have hj' : j + 1 < s.rxLen.toNat := by omega
    rw [markerAt_appendRx_iff hj']
    exact hno j hj'

end Sys2Proof.Machine
end

section
/-! The Frame Synchronizer (41_frame_sync.md): what FIND_HEADER reports, and that a retry finds a marker that was split. -/

namespace Sys2Proof.Proofs.FrameSync

open Sys2Proof.Machine

/-- Settles O17: the search is for the first marker (`exec_findHeader_of_firstMarker`, `exec_findHeader_of_noMarker`), whose
index OFFSET holds (`firstMarker_offset_toNat`). -/
theorem findHeaderReportsFirstMarker : Obligations.FindHeaderReportsFirstMarker :=
  ⟨decode_encode .findHeader, fun _ =>
    ⟨fun _ hfirst => ⟨_, exec_findHeader_of_firstMarker hfirst, firstMarker_offset_toNat hfirst, rfl⟩,
      exec_findHeader_of_noMarker⟩⟩

/-- Settles O18: the two writes append the byte (`performAll_appendRx`), which completes the first marker
(`firstMarker_appendRx`) for the search that follows. -/
theorem splitMarkerIsFoundOnRetry : Obligations.SplitMarkerIsFoundOnRetry := by
  intro s hno hpos hfit hlast
  have hfirst := firstMarker_appendRx hno hpos hfit hlast
  have hrun := calc
    performAll [.bufWrite .rxbuf s.rxLen.toNat 0xA5#8, .regWrite 0x02#32 (BitVec.ofNat 32 (s.rxLen.toNat + 1)),
        .regWrite 0x00#32 0x10000000#32] s
    _ = performAll [.regWrite 0x00#32 0x10000000#32] (s.appendRx 0xA5#8) := performAll_appendRx hfit _ _
    _ = perform (.regWrite 0x00#32 0x10000000#32) (s.appendRx 0xA5#8) := performAll_singleton _ _
    _ = exec .findHeader (s.appendRx 0xA5#8) := perform_encode .findHeader _
    _ = .next _ := exec_findHeader_of_firstMarker hfirst
  exact ⟨_, hrun, rfl, firstMarker_offset_toNat hfirst⟩

end Sys2Proof.Proofs.FrameSync
end

section
/-! PARSE in the words of the statements (42_codec_parse.md R120 to R127): the frame's two checksum pairs, the outcome for
each test that fails, the outcome when none does, and back from the outcome to the test. -/

namespace Sys2Proof.Machine

variable {s t : State} {off : Nat}

/-! ## The frame -/

/-- The span of the model is the byte range of the statements (30_encoding.md R82). -/
theorem ck_frameSpan (s : State) (off : Nat) : Config.ck (s.frameSpan off) = computedPair s off := by
  rw [State.frameSpan, State.bytes_eq_map]; rfl

/-- The stored pair is the frame's checksum field. -/
theorem cks_frameMessage (s : State) (off : Nat) : (s.frameMessage off).cks = storedPair s off := rfl

/-- The whole frame is there, counted from its marker (R122). -/
theorem frameFits_iff (h : FirstMarker s off) : FrameFits s off ↔ 9 + (s.frameLen off).toNat ≤ s.rxLen.toNat - off := by
  have hlt := h.1
  simp only [FrameFits, payloadLength, State.frameLen]; omega

/-! ## The outcome -/

theorem exec_parse_of_noMarker (h : NoMarker s) :
    exec .parse s = .next { s with offset := 0xFFFF#16, codecOp := 3#4, codecCode := .noHeader } := by
  have hfind := (findMarker_eq_none_iff_noMarker s).mpr h
  simp only [exec, execParse, hfind]; rfl

/-- A test that fails at the first marker is reported, with the marker's index (R121 to R125). -/
theorem exec_parse_of_failure {c : CodecCode} (h : FirstMarker s off) (hc : ParseFailure s off c) :
    exec .parse s = .next { s with offset := BitVec.ofNat 16 off, codecOp := 3#4, codecCode := c } := by
  have hfind := (findMarker_eq_some_iff_firstMarker s off).mpr h
  have h9 : Config.minFrame = 9 := rfl
  simp only [exec, execParse, hfind]
  cases hc with
  | truncated hshort =>
    rw [if_pos (show s.rxLen.toNat - off < Config.minFrame + (s.frameLen off).toNat from hshort), ite_self]; rfl
  | checksumMismatch hfit hck => rw [if_neg (by omega), if_neg (by omega), if_pos hck]; rfl
  | noResource hfit hck hown =>
    rw [if_neg (by omega), if_neg (by omega), if_neg (not_not.mpr hck), if_pos hown]; rfl

/-- The state after PARSE stored the frame at `off` in the slot (R126). -/
def State.parsed (s : State) (off : Nat) : State :=
  (State.storeMessage { s with offset := BitVec.ofNat 16 off } (s.frameMessage off)).codecDone 3#4 .ok

theorem exec_parse_of_valid (h : FirstMarker s off) (hfit : FrameFits s off)
    (hck : storedPair s off = computedPair s off) (hfree : s.owned = false) :
    exec .parse s = .next (s.parsed off) := by
  have hfind := (findMarker_eq_some_iff_firstMarker s off).mpr h
  have h9 : Config.minFrame = 9 := rfl
  rw [frameFits_iff h] at hfit
  simp only [exec, execParse, hfind, ck_frameSpan, cks_frameMessage]
  rw [if_neg (by omega), if_neg (by omega), if_neg (not_not.mpr hck), if_neg (by simp [hfree])]; rfl

/-- Where a marker stands, PARSE that does not end with OK reports a test that failed there. -/
theorem parseFailure_of_exec (h : FirstMarker s off) (hrun : exec .parse s = .next t) (hne : t.codecCode ≠ .ok) :
    ParseFailure s off t.codecCode := by
  have hfind := (findMarker_eq_some_iff_firstMarker s off).mpr h
  rcases execParse_cases hrun with ⟨hno, -⟩ | ⟨off', hoff, ⟨c, hc, rfl⟩ | ⟨-, -, -, rfl⟩⟩
  · rw [hfind] at hno; cases hno
  · rw [hfind] at hoff; cases hoff; exact hc
  · exact absurd rfl hne

/-- A code that stands for no test that failed at the first marker is not reported. -/
theorem codecCode_ne_of_not_parseFailure {c : CodecCode} (h : FirstMarker s off) (hrun : exec .parse s = .next t)
    (hok : c ≠ .ok) (hc : ¬ ParseFailure s off c) : t.codecCode ≠ c := by
  rintro rfl
  exact hc (parseFailure_of_exec h hrun hok)

/-! ## RELEASE -/

theorem exec_release_of_owned (h : s.owned = true) :
    exec .release s = .next { s with owned := false, codecOp := 8#4, codecCode := .ok } := by
  rw [exec, execRelease, if_pos h]; rfl

theorem exec_release_of_free (h : s.owned = false) :
    exec .release s = .next { s with codecOp := 8#4, codecCode := .notOwned } := by
  rw [exec, execRelease, if_neg (by simp [h])]; rfl

/-! ## The stored message -/

/-- The slot holds the frame's message. -/
theorem message_parsed (s : State) (off : Nat) : (s.parsed off).message = s.frameMessage off := by
  rw [State.parsed, State.message_codecDone, State.message_storeMessage _ (frameMessage_payload_length s off)]

/-- The frame's message is valid where the frame's two pairs agree (R124). -/
theorem messageValid_frameMessage_iff (s : State) (off : Nat) :
    MessageValid (s.frameMessage off) ↔ storedPair s off = computedPair s off := by
  rw [MessageValid, ← State.frameSpan_eq, ck_frameSpan, cks_frameMessage]

/-- PAYLOAD holds the frame's payload, and its old bytes beyond (R126). -/
theorem payload_byte_parsed (s : State) (off i : Nat) :
    (s.parsed off).byte .payload i =
      if i < payloadLength s off then s.byte .rxbuf (off + 7 + i) else s.byte .payload i := by
  rw [State.parsed, State.byte_codecDone, State.byte_storeMessage, if_pos rfl, State.frameMessage,
    State.bytes_getElem?]
  show Option.getD (if i < payloadLength s off then _ else none) (s.byte .payload i) = _
  split_ifs <;> rfl

/-- The slot's message is the same after a command that wrote OFFSET and its status only. -/
theorem message_with_offset_status (s : State) (o : BitVec 16) (op : BitVec 4) (c : CodecCode) :
    ({ s with offset := o, codecOp := op, codecCode := c } : State).message = s.message := by
  have hpayload : State.bytes { s with offset := o, codecOp := op, codecCode := c } .payload 0 s.msgLen.toNat =
      s.bytes .payload 0 s.msgLen.toNat := State.bytes_congr fun _ _ => rfl
  simp only [State.message, hpayload]

end Sys2Proof.Machine
end

section
/-! A frame in RXBUF (30_encoding.md R80): what PARSE reads of one that stands at index 0, whole or cut short, and of one
with a byte of its checksum changed (42_codec_parse.md R123, R133). -/

namespace Sys2Proof.Machine

variable {s : State} {m : Message} {off : Nat}

/-! ## A frame at index 0 -/

/-- The valid bytes of RXBUF are the first bytes of the message's frame. -/
def ReceivedFrom (s : State) (m : Message) : Prop :=
  ∀ k < s.rxLen.toNat, (frameBytes m)[k]? = some (s.byte .rxbuf k)

/-- The statements' byte range is that, byte by byte. -/
theorem receivedFrom_of_byteRange (h : byteRange s .rxbuf 0 s.rxLen.toNat = (frameBytes m).take s.rxLen.toNat) :
    ReceivedFrom s m := by
  intro k hk
  rw [← List.getElem?_take_of_lt hk, ← h, byteRange, ← State.bytes_eq_map, State.bytes_getElem?, if_pos hk, Nat.zero_add]

/-- Two bytes of the frame are the marker, and nothing stands before them. -/
theorem ReceivedFrom.firstMarker (h : ReceivedFrom s m) (hlen : 2 ≤ s.rxLen.toNat) : FirstMarker s 0 := by
  refine ⟨hlen, ⟨?_, ?_⟩, nofun⟩
  · exact (Option.some.inj (h 0 (by omega))).symm
  · exact (Option.some.inj (h 1 (by omega))).symm

/-- The third byte of the frame is its length byte. -/
theorem ReceivedFrom.frameLen (h : ReceivedFrom s m) (hlen : 3 ≤ s.rxLen.toNat) : s.frameLen 0 = m.len :=
  (Option.some.inj (h 2 (by omega))).symm

/-- A frame determines its message: the last two bytes are the checksum. -/
theorem frameBytes_injective {m' : Message} (h : frameBytes m = frameBytes m') : m = m' := by
  obtain ⟨hfront, hcks⟩ := List.append_inj' h rfl
  cases m; cases m'
  simp_all [headerBytes, Prod.ext_iff]

/-- A whole frame is read as its message. -/
theorem ReceivedFrom.frameMessage (h : ReceivedFrom s m) (hm : m.payload.length = m.len.toNat)
    (hlen : 9 + m.len.toNat ≤ s.rxLen.toNat) : s.frameMessage 0 = m := by
  have hmark : s.markerAt 0 = true := (s.markerAt_iff 0).mpr (h.firstMarker (by omega)).2.1
  apply frameBytes_injective
  rw [s.frameBytes_frameMessage hmark, h.frameLen (by omega)]
  apply List.ext_getElem?
  intro k
  rw [State.bytes_getElem?, Nat.zero_add]
  split_ifs with hk
  · rw [h k (by omega)]
  · rw [List.getElem?_eq_none (by rw [frameBytes_length]; omega)]

/-- A frame cut short is no message: without its two first bytes there is no marker, and else it is not whole. -/
theorem exec_parse_of_cut (h : ReceivedFrom s m) (hcut : s.rxLen.toNat < 9 + m.len.toNat) :
    exec .parse s = .next
      (if s.rxLen.toNat < 2 then { s with offset := 0xFFFF#16, codecOp := 3#4, codecCode := .noHeader }
       else { s with offset := 0#16, codecOp := 3#4, codecCode := .truncated }) := by
  split_ifs with hshort
  · exact exec_parse_of_noMarker fun i hi => absurd hi (by omega)
  · refine exec_parse_of_failure (h.firstMarker (by omega)) (.truncated ?_)
    by_cases h3 : 3 ≤ s.rxLen.toNat
    · rw [h.frameLen h3]; exact hcut
    · omega

/-- A whole frame of a valid message, parsed into a free slot, gives the message. -/
theorem exec_parse_of_whole (h : ReceivedFrom s m) (hm : m.payload.length = m.len.toNat) (hvalid : MessageValid m)
    (hlen : 9 + m.len.toNat ≤ s.rxLen.toNat) (hfree : s.owned = false) :
    exec .parse s = .next (s.parsed 0) ∧ (s.parsed 0).message = m := by
  have hfirst := h.firstMarker (by omega)
  have hframe := h.frameMessage hm hlen
  have hfit : FrameFits s 0 := (frameFits_iff hfirst).mpr (by rw [h.frameLen (by omega)]; exact hlen)
  refine ⟨exec_parse_of_valid hfirst hfit ?_ hfree, by rw [message_parsed, hframe]⟩
  rw [← messageValid_frameMessage_iff, hframe]
  exact hvalid

/-! ## A changed checksum byte -/

/-- A byte of RXBUF written, the others as before. -/
theorem byte_writeByte_rxbuf (s : State) (k : Nat) (b : Byte) (i : Nat) :
    (s.writeByte .rxbuf k b).byte .rxbuf i = if i = k then b else s.byte .rxbuf i := by
  have hwrite := s.byte_writeByte .rxbuf k b .rxbuf i
  simp only [true_and] at hwrite
  exact hwrite

/-- A byte written behind the first marker leaves it the first. -/
theorem firstMarker_writeByte {k : Nat} (hk : off + 1 < k) (b : Byte) (h : FirstMarker s off) :
    FirstMarker (s.writeByte .rxbuf k b) off := by
  have hkeep : ∀ i ≤ off, MarkerAt (s.writeByte .rxbuf k b) i ↔ MarkerAt s i := fun i hi => by
    simp only [MarkerAt, byte_writeByte_rxbuf, if_neg (show i ≠ k by omega), if_neg (show i + 1 ≠ k by omega)]
  obtain ⟨hlt, hmark, hleast⟩ := h
  exact ⟨hlt, (hkeep off le_rfl).mpr hmark, fun j hj hjm => hleast j hj ((hkeep j hj.le).mp hjm)⟩

/-- A changed checksum byte makes the stored pair another one, and leaves the frame's length and span. -/
theorem checksumMismatch_of_changed {k : Nat} {b : Byte} (hck : storedPair s off = computedPair s off)
    (hk : k = off + 7 + payloadLength s off ∨ k = off + 8 + payloadLength s off) (hb : b ≠ s.byte .rxbuf k) :
    payloadLength (s.writeByte .rxbuf k b) off = payloadLength s off ∧
      storedPair (s.writeByte .rxbuf k b) off ≠ computedPair (s.writeByte .rxbuf k b) off := by
  have hlen : payloadLength (s.writeByte .rxbuf k b) off = payloadLength s off := by
    rw [payloadLength, byte_writeByte_rxbuf, if_neg (by omega), payloadLength]
  have hspan : computedPair (s.writeByte .rxbuf k b) off = computedPair s off := by
    simp only [computedPair, hlen, byteRange, ← State.bytes_eq_map]
    refine congrArg Config.ck (State.bytes_congr fun i hi => ?_)
    rw [byte_writeByte_rxbuf, if_neg (by omega)]
  refine ⟨hlen, ?_⟩
  rw [hspan, ← hck]
  simp only [storedPair, hlen, byte_writeByte_rxbuf]
  intro he
  obtain ⟨hfirst, hsecond⟩ := Prod.ext_iff.mp he
  rcases hk with rfl | rfl
  · exact hb (by simpa using hfirst)
  · exact hb (by simpa using hsecond)

end Sys2Proof.Machine
end

section
/-! A script line by line (30_encoding.md R90, R91): a command's line runs the command, TX2RX copies the frame in TXBUF to
RXBUF, and RELEASE frees the slot. -/

namespace Sys2Proof.Machine

variable {s t : State}

/-! ## Lines -/

/-- A line whose transactions answer a next state is followed by the rest of the script. -/
theorem runScript_cons {l : ScriptLine} (h : performAll (expandLine l s) s = .next t) (ls : List ScriptLine) :
    runScript (l :: ls) s = runScript ls t := by
  rw [runScript, h]

/-- A line that writes a command's word runs the command. -/
theorem runScript_command {l : ScriptLine} (i : Instr)
    (hl : expandLine l s = [.regWrite i.port.register.number (encode i)]) (h : exec i s = .next t) (ls : List ScriptLine) :
    runScript (l :: ls) s = runScript ls t :=
  runScript_cons (by rw [hl, performAll_singleton, perform_encode, h]) ls

/-- A RELEASE written where the slot is owned leaves it free, and writes OWNED and its status only. -/
theorem runScript_releaseIfOwned (s : State) (ls : List ScriptLine) :
    ∃ op c, runScript ((if s.owned then [.release] else []) ++ ls) s =
      runScript ls { s with owned := false, codecOp := op, codecCode := c } := by
  cases hown : s.owned with
  | true => exact ⟨_, _, runScript_command .release rfl (exec_release_of_owned hown) ls⟩
  | false => exact ⟨s.codecOp, s.codecCode, congrArg (runScript ls) (by rw [← hown])⟩

/-! ## TX2RX -/

theorem performAll_append {trs : List Transaction} (h : performAll trs s = .next t) (trs' : List Transaction) :
    performAll (trs ++ trs') s = performAll trs' t := by
  induction trs generalizing s with
  | nil => cases h; rfl
  | cons tr trs ih =>
    simp only [performAll, List.cons_append] at h ⊢
    cases hu : perform tr s with
    | next u => rw [hu] at h; exact ih h
    | fault r => cases r
    | refused r => rw [hu] at h; cases h

theorem perform_bufRead {sp : Space} {i : Nat} (hi : i < Config.capacity sp) (s : State) :
    perform (.bufRead sp i) s = .next (s.record (.byte (s.byte sp i))) := if_pos hi

/-- The copying transactions write the bytes of TXBUF, as they stood when the line was written, to RXBUF. -/
theorem performAll_copyTxToRx (n a : Nat) (u : State) (htx : a + n ≤ Config.txCap) (hrx : a + n ≤ Config.rxCap) :
    ∃ vs, performAll (copyTxToRx s a n) u =
      .next { u with rxbuf := u.rxbuf.writeBytes a (s.bytes .txbuf a n), returned := vs } := by
  induction n generalizing a u with
  | zero => exact ⟨u.returned, rfl⟩
  | succ n ih =>
    have hread : a < Config.capacity .txbuf := show a < Config.txCap by omega
    simp only [copyTxToRx, performAll, perform_bufRead hread, perform_bufWrite_rxbuf (show a < Config.rxCap by omega)]
    exact ih (a + 1) _ (by omega) (by omega)

/-- The state after bytes were loaded into RXBUF, reads having returned `vs`. -/
def State.loaded (s : State) (bs : List Byte) (vs : List ReadValue) : State :=
  { s with rxbuf := s.rxbuf.writeBytes 0 bs, rxLen := BitVec.ofNat 16 bs.length, returned := vs }

/-- TX2RX loads the first TX_LEN bytes of TXBUF into RXBUF. -/
theorem performAll_tx2rx (htx : s.txLen.toNat ≤ Config.txCap) (hrx : s.txLen.toNat ≤ Config.rxCap) :
    ∃ vs, performAll (expandLine .tx2rx s) s = .next (s.loaded (s.bytes .txbuf 0 s.txLen.toNat) vs) := by
  obtain ⟨vs, hcopy⟩ := performAll_copyTxToRx (s := s) s.txLen.toNat 0 (s.record (.word (numberValue Reg.txLen.number s)))
    (by omega) (by omega)
  refine ⟨vs, (performAll_append hcopy _).trans ?_⟩
  rw [writeTo, performAll_singleton, perform_regWrite_rxLen hrx, State.loaded, State.bytes_length]
  rfl

/-! ## The round trip -/

/-- The bytes last written to a buffer are there. -/
theorem bytes_of_writeBytes {sp : Space} {mem : Memory} {a : Nat} {bs : List Byte}
    (h : t.memory sp = mem.writeBytes a bs) : t.bytes sp a bs.length = bs := by
  apply List.ext_getElem?
  intro k
  rw [State.bytes_getElem?]
  split_ifs with hk
  · simp [State.byte, h, Memory.read?_writeBytes, hk]
  · rw [List.getElem?_eq_none (by omega)]

/-- The message with its checksum set, as SET_CHECKSUM leaves it (43_codec_serialize.md R142). -/
def withChecksum (m : Message) : Message := { m with cks := Config.ck (messageSpan m) }

theorem messageValid_withChecksum (m : Message) : MessageValid (withChecksum m) := rfl

/-- The state after SET_CHECKSUM. -/
def State.checksummed (s : State) : State :=
  { s with msgCks := Config.ck (messageSpan s.message) }.codecDone 0x5#4 .ok

theorem exec_setChecksum (s : State) : exec .setChecksum s = .next s.checksummed := rfl

theorem message_checksummed (s : State) : s.checksummed.message = withChecksum s.message := by
  have hpayload : s.checksummed.bytes .payload 0 s.msgLen.toNat = s.bytes .payload 0 s.msgLen.toNat :=
    State.bytes_congr fun _ _ => rfl
  rw [State.message, show s.checksummed.msgLen = s.msgLen from rfl, hpayload]
  rfl

/-- The state after SERIALIZE. -/
def State.serialized (s : State) : State :=
  { s with txbuf := s.txbuf.writeBytes 0 (frameBytes s.message), txLen := s.frameLength }.codecDone 0x6#4 .ok

theorem exec_serialize (s : State) : exec .serialize s = .next s.serialized := rfl

/-- TXBUF holds the serialized frame, of length TX_LEN. -/
theorem bytes_serialized (s : State) :
    s.serialized.bytes .txbuf 0 s.serialized.txLen.toNat = frameBytes s.message := by
  have hlen : s.serialized.txLen.toNat = (frameBytes s.message).length := by
    rw [frameBytes_length, State.message_payload_length]; exact frameLength_toNat s
  rw [hlen]
  exact bytes_of_writeBytes rfl

/-- A frame loaded into RXBUF stands there whole. -/
theorem receivedFrom_loaded {m : Message} (hlen : (frameBytes m).length ≤ 65535) (s : State) (vs : List ReadValue) :
    (s.loaded (frameBytes m) vs).rxLen.toNat = (frameBytes m).length ∧ ReceivedFrom (s.loaded (frameBytes m) vs) m := by
  have hrx : (s.loaded (frameBytes m) vs).rxLen.toNat = (frameBytes m).length := by
    rw [State.loaded, BitVec.toNat_ofNat]; omega
  have hbytes : (s.loaded (frameBytes m) vs).bytes .rxbuf 0 (frameBytes m).length = frameBytes m :=
    bytes_of_writeBytes rfl
  refine ⟨hrx, fun k hk => ?_⟩
  have hget := (s.loaded (frameBytes m) vs).bytes_getElem? .rxbuf 0 (frameBytes m).length k
  rwa [hbytes, if_pos (hrx ▸ hk), Nat.zero_add] at hget

/-- A message that is checksummed, serialized and looped back stands in RXBUF as a whole frame; the slot is as owned as
before. -/
theorem runScript_loopBack (s : State) (hfit : 9 + s.msgLen.toNat ≤ Config.rxCap) (ls : List ScriptLine) :
    ∃ t, runScript (.setChecksum :: .serialize :: .tx2rx :: ls) s = runScript ls t ∧
      ReceivedFrom t (withChecksum s.message) ∧ t.rxLen.toNat = 9 + s.msgLen.toNat ∧ t.owned = s.owned := by
  have hbyte := s.msgLen.isLt
  have hcap : Config.txCap = 264 := rfl
  have htx : s.checksummed.serialized.txLen.toNat = 9 + s.msgLen.toNat := frameLength_toNat s.checksummed
  have hlen : (frameBytes (withChecksum s.message)).length = 9 + s.msgLen.toNat := by
    rw [frameBytes_length, withChecksum, State.message_payload_length]
  obtain ⟨vs, hload⟩ := performAll_tx2rx (s := s.checksummed.serialized) (by omega) (by omega)
  rw [bytes_serialized, message_checksummed] at hload
  have hrun := calc
    runScript (.setChecksum :: .serialize :: .tx2rx :: ls) s
    _ = runScript (.serialize :: .tx2rx :: ls) s.checksummed := runScript_command .setChecksum rfl (exec_setChecksum s) _
    _ = runScript (.tx2rx :: ls) s.checksummed.serialized := runScript_command .serialize rfl (exec_serialize _) _
    _ = runScript ls _ := runScript_cons hload ls
  obtain ⟨hrx, hreceived⟩ := receivedFrom_loaded (m := withChecksum s.message) (by omega) s.checksummed.serialized vs
  exact ⟨_, hrun, hreceived, hrx.trans hlen, rfl⟩

end Sys2Proof.Machine
end

section
/-! PARSE and RELEASE (42_codec_parse.md): what each outcome of PARSE says of the bytes received and what it writes, that no
damaged frame is parsed and a sent one is, and who frees the slot. -/

namespace Sys2Proof.Proofs.Parse

open Sys2Proof.Machine

/-- Settles O22: with a marker OFFSET is the search's result (`search_offset`), and no test that fails there is reported as
NO_HEADER. -/
theorem parseReportsMarkerOffset : Obligations.ParseReportsMarkerOffset := by
  refine fun s => ⟨exec_parse_of_noMarker, fun off h => ?_⟩
  obtain ⟨t, ht⟩ := exec_next .parse s
  have hfind := (findMarker_eq_some_iff_firstMarker s off).mpr h
  refine ⟨t, ht, ?_, codecCode_ne_of_not_parseFailure h ht nofun nofun⟩
  rcases search_offset (.inr rfl) ht with ⟨hno, -⟩ | ⟨off', hoff, ho⟩
  · rw [hfind] at hno; cases hno
  · rw [hfind] at hoff; cases hoff
    rw [ho, firstMarker_offset_toNat h]

/-- Settles O23: TRUNCATED is the report of the length tests and of no other test (`ParseFailure`). -/
theorem parseTruncatedWhenFrameIncomplete : Obligations.ParseTruncatedWhenFrameIncomplete := by
  refine fun s off h => ⟨fun hshort => exec_parse_of_failure h (.truncated ?_), fun hfit t ht => ?_⟩
  · rcases hshort with hmin | hlen
    · exact Nat.lt_add_right _ hmin
    · exact hlen
  · refine codecCode_ne_of_not_parseFailure h ht nofun ?_
    intro hc
    cases hc with
    | truncated hshort => exact absurd hshort (Nat.not_lt.mpr hfit)

/-- Settles O24: CHECKSUM_MISMATCH is the report of the checksum test and of no other test (`ParseFailure`). -/
theorem parseComparesChecksum : Obligations.ParseComparesChecksum := by
  refine fun s off h hfit => ⟨fun hck => ?_, fun hck t ht => ?_⟩
  · exact exec_parse_of_failure h (.checksumMismatch ((frameFits_iff h).mp hfit) (by rwa [ck_frameSpan]))
  · refine codecCode_ne_of_not_parseFailure h ht nofun ?_
    intro hc
    cases hc with
    | checksumMismatch _ hne => rw [ck_frameSpan] at hne; exact hne hck

/-- Settles O25: the slot is the last of the tests at a marker, so the frame passed the ones before it (`ParseFailure`). -/
theorem parseNeedsFreeSlot : Obligations.ParseNeedsFreeSlot := by
  refine ⟨fun s off h hfit hck hown => ?_, fun s t ht hcode => ?_⟩
  · exact exec_parse_of_failure h (.noResource ((frameFits_iff h).mp hfit) (by rwa [ck_frameSpan]) hown)
  · rcases execParse_cases ht with ⟨-, rfl⟩ | ⟨off, hoff, ⟨c, hc, rfl⟩ | ⟨-, -, -, rfl⟩⟩
    · cases hcode
    · cases hcode
      have h := (findMarker_eq_some_iff_firstMarker s off).mp hoff
      cases hc with
      | noResource hfit hck hown => exact ⟨hown, off, h, (frameFits_iff h).mpr hfit, by rwa [ck_frameSpan] at hck⟩
    · cases hcode

/-- Settles O26: the command ends in `State.parsed`, whose slot holds the frame's message (`message_parsed`). -/
theorem parseStoresValidFrame : Obligations.ParseStoresValidFrame := by
  refine ⟨decode_encode .parse, fun s off h hfit hck hfree => ?_⟩
  refine ⟨s.parsed off, exec_parse_of_valid h hfit hck hfree, rfl, ?_, payload_byte_parsed s off⟩
  rw [message_parsed, messageValid_frameMessage_iff]
  exact hck

/-- Settles O27: every failing outcome of `execParse_cases` has this frame, and no command writes RXBUF or RX_LEN. -/
theorem parseFailureLeavesSlot : Obligations.ParseFailureLeavesSlot := by
  refine fun s t h => ⟨fun hne => ?_, by rw [exec_keeps_input h]; rfl, exec_rxLen h⟩
  rcases execParse_cases h with ⟨-, rfl⟩ | ⟨off, -, ⟨c, -, rfl⟩ | ⟨-, -, -, rfl⟩⟩
  · rfl
  · rfl
  · exact absurd rfl hne

/-- Settles O30: the valid bytes are the first of the frame, and of those PARSE makes no message (`exec_parse_of_cut`). -/
theorem truncatedFrameIsNeverAccepted : Obligations.TruncatedFrameIsNeverAccepted :=
  fun _ _ _ hcut hbytes => exec_parse_of_cut (receivedFrom_of_byteRange hbytes) hcut

/-- Settles O31: the write leaves the first marker (`firstMarker_writeByte`) and the frame's span, and makes the stored pair
another one (`checksumMismatch_of_changed`), which O24 says is reported. -/
theorem changedChecksumByteIsRejected : Obligations.ChangedChecksumByteIsRejected := by
  intro s off k b h hfit hck hcap hk hb
  have hin : off + 1 < k ∧ k < Config.rxCap := by
    simp only [FrameFits] at hfit; omega
  obtain ⟨hlen, hbad⟩ := checksumMismatch_of_changed hck hk hb
  have hfirst := firstMarker_writeByte hin.1 b h
  have hfit' : FrameFits (s.writeByte .rxbuf k b) off := by
    rw [FrameFits, hlen]; exact hfit
  have hrun := calc
    performAll [.bufWrite .rxbuf k b, .regWrite 0x00#32 0x30000000#32] s
    _ = performAll [.regWrite 0x00#32 0x30000000#32] (s.writeByte .rxbuf k b) := by
      simp only [performAll, perform_bufWrite_rxbuf hin.2]
    _ = perform (.regWrite 0x00#32 0x30000000#32) (s.writeByte .rxbuf k b) := performAll_singleton _ _
    _ = exec .parse (s.writeByte .rxbuf k b) := perform_encode .parse _
    _ = .next _ := (parseComparesChecksum _ off hfirst hfit').1 hbad
  refine ⟨_, hrun, rfl, firstMarker_offset_toNat hfirst, ?_, rfl⟩
  rw [message_with_offset_status]
  exact State.message_withInput s _ s.rxLen s.pending

/-- Settles O32: the frame stands whole in RXBUF (`runScript_loopBack`), the slot is freed (`runScript_releaseIfOwned`), and
PARSE gives the message (`exec_parse_of_whole`). -/
theorem serializedMessageParsesBack : Obligations.SerializedMessageParsesBack := by
  intro s hfit
  obtain ⟨t, hloop, hreceived, hlen, hown⟩ :=
    runScript_loopBack s hfit ((if s.owned then [.release] else []) ++ [.parse])
  obtain ⟨op, c, hrelease⟩ := runScript_releaseIfOwned t [.parse]
  obtain ⟨hparse, hmessage⟩ := exec_parse_of_whole (s := { t with owned := false, codecOp := op, codecCode := c })
    (m := withChecksum s.message) hreceived s.message_payload_length (messageValid_withChecksum _) hlen.ge rfl
  have hrun := calc
    runScript ([.setChecksum, .serialize, .tx2rx] ++ (if s.owned then [.release] else []) ++ [.parse]) s
    _ = runScript ((if t.owned then [.release] else []) ++ [.parse]) t := by
      rw [List.append_assoc, hown]; exact hloop
    _ = runScript [.parse] _ := hrelease
    _ = .next _ := runScript_command .parse rfl hparse []
  exact ⟨_, hrun, rfl, rfl, rfl, hmessage⟩

/-- Settles O33: of the transactions that change OWNED (`ownedChangesOnlyByClaimAndRelease`), RELEASE and Reset clear it. -/
theorem releaseFreesOwnedSlot : Obligations.ReleaseFreesOwnedSlot := by
  refine ⟨decode_encode .release, fun s => ⟨exec_release_of_owned, exec_release_of_free, fun tr t h hown hfree => ?_⟩⟩
  have hstep : step (s.withPending (tr :: s.pending)) = .next t := (step_cons rfl).trans h
  rcases Slot.ownedChangesOnlyByClaimAndRelease (s.withPending (tr :: s.pending)) t tr s.pending rfl hstep
      (by simp [hown, hfree]) with ⟨hset, -⟩ | ⟨-, hreset | ⟨hrelease, -⟩⟩
  · rw [hfree] at hset; cases hset
  · exact .inr hreset
  · exact .inl hrelease

end Sys2Proof.Proofs.Parse
end

section
/-! The serialize side of the codec (43_codec_serialize.md): the next state of SERLEN, what SET_CHECKSUM leaves for a second
one, and the bytes of TXBUF after SERIALIZE, read off the frame. -/

namespace Sys2Proof.Machine

/-! ## SERLEN -/

theorem exec_serlen (s : State) :
    exec .serlen s = .next { s with serLen := s.frameLength, codecOp := 4#4, codecCode := .ok } := rfl

/-- Of the commands only SERLEN writes SER_LEN (10_state.md R27). -/
theorem exec_serLen {i : Instr} {s t : State} (h : exec i s = .next t) (hi : i ≠ .serlen) : t.serLen = s.serLen := by
  rw [exec_frame h]
  cases i with
  | serlen => exact absurd rfl hi
  | _ => rfl

/-! ## SET_CHECKSUM -/

theorem messageValid_checksummed (s : State) : MessageValid s.checksummed.message := by
  rw [message_checksummed]; exact messageValid_withChecksum _

/-- The checksum field is no part of its own span, so a checksum set again is the same (43_codec_serialize.md R142). -/
theorem checksummed_checksummed (s : State) : s.checksummed.checksummed = s.checksummed := by
  have hspan : messageSpan s.checksummed.message = messageSpan s.message := by rw [message_checksummed]; rfl
  rw [State.checksummed, hspan]
  rfl

/-! ## The frame in TXBUF -/

/-- After the marker and the header fields a frame holds the payload and then the checksum (30_encoding.md R80). -/
theorem frameBytes_getElem?_seven_add (m : Message) (i : Nat) :
    (frameBytes m)[7 + i]? = (m.payload ++ [m.cks.1, m.cks.2])[i]? := by
  rw [frameBytes, List.append_assoc, List.getElem?_append_right (by simp)]
  simp

/-- TXBUF after SERIALIZE: the frame, and the old bytes beyond it (43_codec_serialize.md R144, R148). -/
theorem byte_serialized (s : State) (i : Nat) :
    s.serialized.byte .txbuf i = ((frameBytes s.message)[i]?).getD (s.byte .txbuf i) := by
  have hmem : s.serialized.memory .txbuf = (s.memory .txbuf).writeBytes 0 (frameBytes s.message) := rfl
  have hresets : s.serialized.resets = s.resets := rfl
  simp only [State.byte, hmem, hresets, Memory.read?_writeBytes, Nat.zero_le, true_and, Nat.zero_add, Nat.sub_zero]
  split_ifs with hi
  · simp [hi]
  · rw [List.getElem?_eq_none (by omega), Option.getD_none]

/-- TXBUF after SERIALIZE from index 7 on: the payload, the stored checksum, the old bytes. -/
theorem byte_serialized_seven_add (s : State) (i : Nat) :
    s.serialized.byte .txbuf (7 + i) =
      ((s.bytes .payload 0 s.msgLen.toNat ++ [s.msgCks.1, s.msgCks.2])[i]?).getD (s.byte .txbuf (7 + i)) := by
  rw [byte_serialized, frameBytes_getElem?_seven_add]; rfl

theorem byte_serialized_payload (s : State) {i : Nat} (hi : i < s.msgLen.toNat) :
    s.serialized.byte .txbuf (7 + i) = s.byte .payload i := by
  rw [byte_serialized_seven_add, List.getElem?_append_left (by rwa [State.bytes_length]), State.bytes_getElem?, if_pos hi,
    Nat.zero_add, Option.getD_some]

/-- The two bytes after the payload are the stored checksum, whatever it is (43_codec_serialize.md R145). -/
theorem byte_serialized_checksum (s : State) :
    s.serialized.byte .txbuf (7 + s.msgLen.toNat) = s.msgCks.1 ∧
      s.serialized.byte .txbuf (8 + s.msgLen.toNat) = s.msgCks.2 := by
  constructor
  · rw [byte_serialized_seven_add, List.getElem?_append_right (by simp)]
    simp
  · rw [show 8 + s.msgLen.toNat = 7 + (s.msgLen.toNat + 1) by omega, byte_serialized_seven_add,
      List.getElem?_append_right (by simp)]
    simp

theorem byte_serialized_beyond (s : State) {i : Nat} (hi : 9 + s.msgLen.toNat ≤ i) :
    s.serialized.byte .txbuf i = s.byte .txbuf i := by
  have hlen : (frameBytes s.message).length ≤ i := by rwa [frameBytes_length, State.message_payload_length]
  rw [byte_serialized, List.getElem?_eq_none hlen, Option.getD_none]

end Sys2Proof.Machine
end

section
/-! SERLEN, SET_CHECKSUM and SERIALIZE (43_codec_serialize.md): what each leaves in its register, in the slot and in TXBUF. -/

namespace Sys2Proof.Proofs.Serialize

open Sys2Proof.Machine

/-- Settles O34: the frame's length fits the 9 bits (`frameLength_toNat`), and of the transactions only a command's word and
Reset reach SER_LEN (`perform_next_cases`), of the commands only SERLEN (`exec_serLen`). -/
theorem serlenIsNinePlusLength : Obligations.SerlenIsNinePlusLength := by
  refine ⟨decode_encode .serlen, fun s => ⟨⟨_, exec_serlen s, frameLength_toNat s, rfl⟩, ?_⟩⟩
  intro tr t h hserlen hreset
  rcases perform_next_cases h with ⟨p, w, i, rfl, hw, hrun⟩ | ⟨p, w, -, rfl⟩ | ⟨rfl, -⟩ | ⟨-, hacc⟩
  · obtain ⟨rfl, rfl⟩ := encode_of_decode hw
    refine exec_serLen hrun ?_
    rintro rfl
    exact hserlen rfl
  · cases p <;> rfl
  · exact absurd rfl hreset
  · rw [hacc.frame]

/-- Settles O35: the command ends in `State.checksummed`, whose message is valid (`messageValid_checksummed`) and which a
second SET_CHECKSUM leaves as it is (`checksummed_checksummed`). -/
theorem setChecksumOverSpan : Obligations.SetChecksumOverSpan := by
  refine ⟨decode_encode .setChecksum, fun s => ⟨_, exec_setChecksum s, ?_, messageValid_checksummed s, ?_⟩⟩
  · rw [← messageSpan_message]; rfl
  · rw [exec_setChecksum, checksummed_checksummed]

/-- Settles O36: the command ends in `State.serialized`, whose TXBUF is read byte by byte off the frame (`byte_serialized`),
from index 7 on off the payload and the stored checksum (`byte_serialized_seven_add`). -/
theorem serializeWritesFrame : Obligations.SerializeWritesFrame := by
  refine ⟨decode_encode .serialize, fun s => ?_⟩
  obtain ⟨hfirst, hsecond⟩ := byte_serialized_checksum s
  exact ⟨s.serialized, exec_serialize s, rfl, frameLength_toNat s,
    byte_serialized s 0, byte_serialized s 1, byte_serialized s 2, byte_serialized s 3,
    byte_serialized s 4, byte_serialized s 5, byte_serialized s 6,
    fun _ => byte_serialized_payload s, hfirst, hsecond, fun _ => byte_serialized_beyond s⟩

end Sys2Proof.Proofs.Serialize
end

section
/-! BUILD_READ outcome by outcome (44_builder.md R160 to R163): the two refusals, and the slot after the request is stored. -/

namespace Sys2Proof.Machine

variable {s : State} {dst reg : Byte} {rdlen : BitVec 12}

/-- A length above 255 is refused whether or not the slot is free (R161, R162). -/
theorem exec_buildRead_of_outOfRange (h : 255 < rdlen.toNat) :
    exec (.buildRead dst reg rdlen) s = .next { s with codecOp := 7#4, codecCode := .invalidParam } := by
  rw [exec, execBuildRead, if_pos (show Config.maxReadLen < rdlen.toNat from h)]; rfl

theorem exec_buildRead_of_owned (h : rdlen.toNat ≤ 255) (hown : s.owned = true) :
    exec (.buildRead dst reg rdlen) s = .next { s with codecOp := 7#4, codecCode := .noResource } := by
  rw [exec, execBuildRead, if_neg (show ¬ Config.maxReadLen < rdlen.toNat from Nat.not_lt.mpr h), if_pos hown]; rfl

/-- The state after BUILD_READ stored its request in the slot (R160). -/
def State.requested (s : State) (dst reg : Byte) (rdlen : BitVec 12) : State :=
  (s.storeMessage (builtRequest dst reg rdlen)).codecDone 7#4 .ok

theorem exec_buildRead_of_free (h : rdlen.toNat ≤ 255) (hfree : s.owned = false) :
    exec (.buildRead dst reg rdlen) s = .next (s.requested dst reg rdlen) := by
  rw [exec, execBuildRead, if_neg (show ¬ Config.maxReadLen < rdlen.toNat from Nat.not_lt.mpr h),
    if_neg (by simp [hfree])]; rfl

/-- The request's payload is its one byte at PL[0]; the bytes above keep their values (R163). -/
theorem byte_payload_requested (s : State) (dst reg : Byte) (rdlen : BitVec 12) (i : Nat) :
    (s.requested dst reg rdlen).byte .payload i =
      if i = 0 then BitVec.ofNat 8 rdlen.toNat else s.byte .payload i := by
  rw [State.requested, State.byte_codecDone, State.byte_storeMessage, if_pos rfl]
  cases i <;> rfl

end Sys2Proof.Machine
end

section
/-! The Register-Read Message Builder (44_builder.md): what BUILD_READ answers, and what it leaves in the slot. -/

namespace Sys2Proof.Proofs.Builder

open Sys2Proof.Machine

/-- Settles O37: the number is that of the command's word (`encode_buildRead_toNat`), there is one rule for each outcome, and
on OK the command ends in `State.requested`, whose PAYLOAD is read byte by byte (`byte_payload_requested`). -/
theorem buildReadStoresRequest : Obligations.BuildReadStoresRequest := by
  refine fun dst reg rdlen => ⟨?_, fun s =>
    ⟨exec_buildRead_of_outOfRange, exec_buildRead_of_owned, fun hfit hfree => ?_⟩⟩
  · rw [ofNat_eq_encode (encode_buildRead_toNat dst reg rdlen)]
    exact decode_encode (.buildRead dst reg rdlen)
  · exact ⟨s.requested dst reg rdlen, exec_buildRead_of_free hfit hfree, rfl, byte_payload_requested s dst reg rdlen⟩

end Sys2Proof.Proofs.Builder
end

section
/-! The Bit-Stream Decoder's commands case by case (45_bitstream.md R170 to R178), a byte and its parity as sums of bits, and
what the decoder holds after any number of bits (R173). -/

namespace Sys2Proof.Machine

variable {s : State}

/-- A word given by its number, that of a command's word, decodes to the command. -/
theorem decode_ofNat {n : Nat} {i : Instr} (h : (encode i).toNat = n) : decode i.port (BitVec.ofNat 32 n) = .ok i := by
  rw [ofNat_eq_encode h, decode_encode]

/-! ## ADD_BIT -/

/-- When Ready the bit is discarded (R172). -/
theorem exec_addBit_of_ready (h : s.bitIndex.val = 8) (b : Bool) :
    exec (.addBit b) s = .next { s with bsdOp := 0xA#4, bsdCode := .alreadyComplete } := by
  rw [exec_addBit, addBitDecoder, if_pos h]; rfl

/-- The state after ADD_BIT stored a bit at BIT_INDEX (R170). -/
def State.withBit (s : State) (b : Bool) : State :=
  { s with
    value := setBit s.value s.bitIndex.val b, bitIndex := nextIndex s.bitIndex, bsdOp := 0xA#4,
    bsdCode := if s.bitIndex.val + 1 = 8 then .complete else .accepted }

theorem exec_addBit_of_accumulating (h : s.bitIndex.val < 8) (b : Bool) :
    exec (.addBit b) s = .next (s.withBit b) := by
  rw [exec_addBit, addBitDecoder, if_neg h.ne, nextIndex_val h.ne]; rfl

theorem withBit_bitIndex (h : s.bitIndex.val < 8) (b : Bool) : (s.withBit b).bitIndex.val = s.bitIndex.val + 1 :=
  nextIndex_val h.ne

theorem withBit_getLsbD (h : s.bitIndex.val < 8) (b : Bool) (j : Nat) :
    (s.withBit b).value.getLsbD j = if j = s.bitIndex.val then b else s.value.getLsbD j :=
  setBit_getLsbD s.value h b j

/-! ## CHECK_PARITY -/

/-- Before Ready nothing is compared (R175). -/
theorem exec_checkParity_of_accumulating (h : s.bitIndex.val < 8) (b : Bool) :
    exec (.checkParity b) s = .next { s with bsdOp := 0xB#4, bsdCode := .notReady } := by
  rw [exec_checkParity, checkParityDecoder, if_neg h.ne]; rfl

theorem exec_checkParity_of_ready (h : s.bitIndex.val = 8) (b : Bool) :
    exec (.checkParity b) s = .next
      { s with bsdOp := 0xB#4, bsdCode := if b = parity s.value then .matched else .mismatched } := by
  rw [exec_checkParity, checkParityDecoder, if_pos h]; rfl

/-! ## Sums of bits -/

/-- A word is the sum of its bits' weights. -/
theorem toNat_eq_sum_getLsbD {w : Nat} (v : BitVec w) :
    v.toNat = ∑ i ∈ Finset.range w, (v.getLsbD i).toNat * 2 ^ i := by
  have hmod : ∀ n, v.toNat % 2 ^ n = ∑ i ∈ Finset.range n, (v.getLsbD i).toNat * 2 ^ i := by
    intro n
    induction n with
    | zero => simp [Nat.mod_one]
    | succ n ih => rw [Finset.sum_range_succ, ← ih, Nat.mod_pow_succ, BitVec.getLsbD, Nat.toNat_testBit, Nat.mul_comm]
  rw [← hmod w, Nat.mod_eq_of_lt v.isLt]

/-- The exclusive-or of two bits is their sum modulo 2. -/
theorem xor_toNat (a b : Bool) : (a ^^ b).toNat = (a.toNat + b.toNat) % 2 := by
  cases a <;> cases b <;> rfl

/-- `par(v)` counts the ones modulo 2 (R176). -/
theorem parity_toNat (v : Byte) : (parity v).toNat = (∑ i ∈ Finset.range 8, (v.getLsbD i).toNat) % 2 := by
  simp only [parity, xor_toNat, Finset.sum_range_succ, Finset.sum_range_zero, Nat.mod_add_mod, Nat.zero_add]

theorem eq_parity_iff (b : Bool) (v : Byte) :
    b = parity v ↔ b.toNat = (∑ i ∈ Finset.range 8, (v.getLsbD i).toNat) % 2 := by
  rw [← parity_toNat]
  exact (Function.LeftInverse.injective Bool.ofNat_toNat).eq_iff.symm

/-! ## A sequence of bits -/

/-- The decoder's code after `n` bits since a reset (R173). -/
def receivedCode (n : Nat) : BsdCode :=
  if n = 0 then .ok else if n < 8 then .accepted else if n = 8 then .complete else .alreadyComplete

/-- The bit that follows fewer than eight completes the byte or is accepted. -/
theorem receivedCode_succ {n : Nat} (h : n < 8) : receivedCode (n + 1) = if n + 1 = 8 then .complete else .accepted := by
  rw [receivedCode, if_neg (Nat.succ_ne_zero n)]
  rcases Nat.lt_or_eq_of_le h with hlt | heq
  · rw [if_pos hlt, if_neg hlt.ne]
  · obtain rfl : n = 7 := by omega
    rfl

theorem receivedCode_of_gt {n : Nat} (h : 8 < n) : receivedCode n = .alreadyComplete := by
  rw [receivedCode, if_neg (by omega), if_neg (by omega), if_neg (by omega)]

/-- The decoder has received these bits since it was reset: the first eight stand in VALUE, bits not yet received are 0
(R173). -/
structure Received (bits : List Bool) (s : State) : Prop where
  index : s.bitIndex.val = min bits.length 8
  value : ∀ j < 8, s.value.getLsbD j = bits.getD j false
  code : s.bsdCode = receivedCode bits.length

/-- Reset and BSD_RESET start an empty sequence (R178). -/
theorem received_nil_of_reset {r : Transaction} (h : r = .reset ∨ r = .regWrite 0x10#32 0xC0000000#32) (s : State) :
    ∃ t, perform r s = .next t ∧ Received [] t := by
  rcases h with rfl | rfl
  · exact ⟨_, rfl, rfl, fun j _ => BitVec.getLsbD_zero, rfl⟩
  · exact ⟨_, perform_encode .bsdReset s, rfl, fun j _ => BitVec.getLsbD_zero, rfl⟩

theorem Received.withBit {bits : List Bool} (h : Received bits s) (hlt : bits.length < 8) (b : Bool) :
    Received (bits ++ [b]) (s.withBit b) := by
  have hk : s.bitIndex.val = bits.length := h.index.trans (Nat.min_eq_left hlt.le)
  refine ⟨?_, fun j hj => ?_, ?_⟩
  · rw [withBit_bitIndex (by omega), hk, List.length_append, List.length_singleton]; omega
  · rw [withBit_getLsbD (by omega), hk, h.value j hj]
    rcases lt_trichotomy j bits.length with hj' | rfl | hj'
    · rw [if_neg hj'.ne, List.getD_append _ _ _ _ hj']
    · simp
    · rw [if_neg hj'.ne', List.getD_eq_default _ _ hj'.le, List.getD_eq_default _ _ (by simpa using hj')]
  · rw [List.length_append, List.length_singleton, receivedCode_succ hlt, ← hk]; rfl

/-- A bit past the eighth counts for neither VALUE nor BIT_INDEX (R172). -/
theorem Received.discard {bits : List Bool} (h : Received bits s) (hge : 8 ≤ bits.length) (b : Bool) :
    Received (bits ++ [b]) { s with bsdOp := 0xA#4, bsdCode := .alreadyComplete } := by
  refine ⟨?_, fun j hj => ?_, ?_⟩
  · rw [h.index, List.length_append]; omega
  · rw [List.getD_append _ _ _ _ (by omega)]; exact h.value j hj
  · rw [List.length_append, List.length_singleton, receivedCode_of_gt (by omega)]

theorem Received.addBit {bits : List Bool} (h : Received bits s) (b : Bool) :
    ∃ t, exec (.addBit b) s = .next t ∧ Received (bits ++ [b]) t := by
  have hindex := h.index
  rcases Nat.lt_or_ge bits.length 8 with hlt | hge
  · exact ⟨_, exec_addBit_of_accumulating (by omega) b, h.withBit hlt b⟩
  · exact ⟨_, exec_addBit_of_ready (by omega) b, h.discard hge b⟩

/-- The host sends one bit to the decoder. -/
theorem perform_addBit (b : Bool) (s : State) :
    perform (.regWrite 0x10#32 (BitVec.ofNat 32 (0xA0000000 + b.toNat))) s = exec (.addBit b) s := by
  rw [ofNat_eq_encode (encode_addBit_toNat b)]
  exact perform_encode (.addBit b) s

/-- Bits sent one after another are received in that order. -/
theorem Received.addBits {pre : List Bool} (h : Received pre s) (bits : List Bool) :
    ∃ t, performAll (bits.map fun b => .regWrite 0x10#32 (BitVec.ofNat 32 (0xA0000000 + b.toNat))) s = .next t ∧
      Received (pre ++ bits) t := by
  induction bits generalizing pre s with
  | nil => exact ⟨s, rfl, by rwa [List.append_nil]⟩
  | cons b bits ih =>
    obtain ⟨u, hu, hreceived⟩ := h.addBit b
    obtain ⟨t, ht, hall⟩ := ih hreceived
    refine ⟨t, ?_, by rwa [List.append_assoc] at hall⟩
    simpa only [List.map_cons, performAll, perform_addBit, hu] using ht

theorem Received.ready {bits : List Bool} (h : Received bits s) : s.ready = decide (8 ≤ bits.length) := by
  rw [State.ready, h.index, decide_eq_decide]; omega

/-- VALUE is the sum of the bits received, the first of weight 1; those not yet received count as 0 (R173). -/
theorem Received.value_toNat {bits : List Bool} (h : Received bits s) :
    s.value.toNat = ∑ i ∈ Finset.range (min bits.length 8), (bits.getD i false).toNat * 2 ^ i := by
  rw [toNat_eq_sum_getLsbD, Finset.sum_congr rfl fun i hi => by rw [h.value i (Finset.mem_range.mp hi)]]
  symm
  apply Finset.sum_subset (Finset.range_mono (Nat.min_le_right _ _))
  intro i hi hbeyond
  have hlen : bits.length ≤ i := by simp only [Finset.mem_range] at hi hbeyond; omega
  rw [List.getD_eq_default _ _ hlen, Bool.toNat_false, Nat.zero_mul]

end Sys2Proof.Machine
end

section
/-! The Bit-Stream Decoder (45_bitstream.md): where a bit goes, the byte a sequence of bits makes, and its parity. -/

namespace Sys2Proof.Proofs.BitStream

open Sys2Proof.Machine

/-- Settles O38: the number is that of the command's word (`encode_addBit_toNat`); an accumulating decoder ends in
`State.withBit`, whose VALUE is read bit by bit (`withBit_getLsbD`). -/
theorem addBitFillsNextPosition : Obligations.AddBitFillsNextPosition := by
  refine fun b => ⟨decode_ofNat (encode_addBit_toNat b), fun s =>
    ⟨fun hready => exec_addBit_of_ready hready b, fun hlt => ?_⟩⟩
  exact ⟨s.withBit b, exec_addBit_of_accumulating hlt b, withBit_bitIndex hlt b, withBit_getLsbD hlt b, rfl⟩

/-- Settles O39: the reset starts an empty sequence (`received_nil_of_reset`), each ADD_BIT adds its bit to it
(`Received.addBits`), and the decoder's registers are read off the sequence. -/
theorem bitsAssembleLeastSignificantFirst : Obligations.BitsAssembleLeastSignificantFirst := by
  intro s r bits hr
  obtain ⟨u, hreset, hempty⟩ := received_nil_of_reset hr s
  obtain ⟨t, hbits, hreceived⟩ := hempty.addBits bits
  rw [List.nil_append] at hreceived
  refine ⟨t, ?_, hreceived.index, hreceived.ready, hreceived.value_toNat, hreceived.code⟩
  simpa only [performAll, hreset] using hbits

/-- Settles O40: a Ready decoder compares with `par(VALUE)`, which is the sum of the bits modulo 2 (`eq_parity_iff`). -/
theorem checkParityComparesWhenReady : Obligations.CheckParityComparesWhenReady := by
  refine fun b => ⟨decode_ofNat (encode_checkParity_toNat b), fun s =>
    ⟨fun hlt => exec_checkParity_of_accumulating hlt b, fun hready => ?_⟩⟩
  simp only [exec_checkParity_of_ready hready, eq_parity_iff]

/-- Settles O41: the parity bit is the number of ones modulo 2 (`parity_toNat`), so adding it makes that number even. -/
theorem parityMakesOnesEven : Obligations.ParityMakesOnesEven := by
  intro v
  have hparity := parity_toNat v
  exact ⟨hparity, by omega⟩

/-- Settles O42: BSD_RESET does not look at the state it clears. -/
theorem bsdResetClearsAccumulator : Obligations.BsdResetClearsAccumulator :=
  ⟨decode_encode .bsdReset, fun _ => ⟨_, rfl, rfl, rfl, rfl⟩⟩

end Sys2Proof.Proofs.BitStream
end

section
/-! The status a command ends with (60_exceptions.md R191, R192): ILLEGAL_CMD is for words that are no command (30_encoding.md
R75), so no command reports it. -/

namespace Sys2Proof.Machine

variable {s t : State}

theorem ParseFailure.ne_illegalCmd {off : Nat} {c : CodecCode} (h : ParseFailure s off c) : c ≠ .illegalCmd := by
  cases h <;> decide

/-- No codec command reports ILLEGAL_CMD (60_exceptions.md R191). -/
theorem exec_codecCode_ne_illegalCmd {i : Instr} (hp : i.port = .codec) (h : exec i s = .next t) :
    t.codecCode ≠ .illegalCmd := by
  cases i with
  | findHeader => rcases execFindHeader_cases h with ⟨off, -, rfl⟩ | ⟨-, rfl⟩ <;> nofun
  | parse =>
    rcases execParse_cases h with ⟨-, rfl⟩ | ⟨off, -, ⟨c, hc, rfl⟩ | ⟨-, -, -, rfl⟩⟩
    · nofun
    · exact hc.ne_illegalCmd
    · nofun
  | buildRead dst reg rdlen => rcases execBuildRead_cases h with ⟨-, rfl⟩ | ⟨-, -, rfl⟩ | ⟨-, -, rfl⟩ <;> nofun
  | release => rcases execRelease_cases h with ⟨-, rfl⟩ | ⟨-, rfl⟩ <;> nofun
  | ckCompute | serlen | setChecksum | serialize => cases h; nofun
  | addBit b | checkParity b | bsdReset => cases hp

/-- No decoder command reports ILLEGAL_CMD (60_exceptions.md R192). -/
theorem exec_bsdCode_ne_illegalCmd {i : Instr} (hp : i.port = .bsd) (h : exec i s = .next t) :
    t.bsdCode ≠ .illegalCmd := by
  cases i with
  | addBit b =>
    rcases execAddBit_cases h with ⟨-, rfl⟩ | ⟨-, -, rfl⟩
    · nofun
    · dsimp only; split_ifs <;> nofun
  | checkParity b => rcases execCheckParity_cases h with ⟨-, rfl⟩ | ⟨-, -, rfl⟩ | ⟨-, -, rfl⟩ <;> nofun
  | bsdReset => cases h; nofun
  | _ => cases hp

end Sys2Proof.Machine
end

section
/-! Outcomes are status codes (60_exceptions.md): every command ends with one in its port's status register, and the codes'
numbers. -/

namespace Sys2Proof.Proofs.Exceptions

open Sys2Proof.Machine

/-- Settles O48: every command answers a next state (`exec_next`); its port's OP is the command's opcode (`exec_codecRun`,
`exec_bsd_keeps`), and the code beside it is never ILLEGAL_CMD. -/
theorem everyCommandCompletes : Obligations.EveryCommandCompletes := by
  intro i s
  obtain ⟨t, h⟩ := exec_next i s
  refine ⟨t, h, fun hp => ?_, fun hp => ?_⟩
  · exact ⟨(exec_codecRun hp h).codecOp_eq, exec_codecCode_ne_illegalCmd hp h⟩
  · exact ⟨(exec_bsd_keeps hp h).1, exec_bsdCode_ne_illegalCmd hp h⟩

/-- Settles O55: the two tables of 60_exceptions.md R191 and R192, evaluated at each code. -/
theorem statusCodeNumbers : Obligations.StatusCodeNumbers := ⟨rfl, rfl⟩

end Sys2Proof.Proofs.Exceptions
end

section
/-! Reset (70_reset_and_hazards.md R220): the buffers a reset leaves unwritten, and the Reset transaction as a step. -/

namespace Sys2Proof.Machine

/-- A buffer with no byte written since reset holds the power-on bytes of the current draw (93_implementation_defined.md
U3). -/
theorem State.byte_of_memory_nil {s : State} {sp : Space} (h : s.memory sp = []) (i : Nat) :
    s.byte sp i = Config.powerOnByte s.resets sp i := by
  simp only [State.byte, h, Memory.read?_nil, Option.getD_none]

@[simp] theorem State.memory_reset (sp : Space) : State.reset.memory sp = [] := by
  cases sp <;> rfl

@[simp] theorem State.memory_hardReset (s : State) (sp : Space) : s.hardReset.memory sp = [] := by
  cases sp <;> rfl

theorem State.byte_reset (sp : Space) (i : Nat) : State.reset.byte sp i = Config.powerOnByte 0 sp i :=
  State.byte_of_memory_nil (State.memory_reset sp) i

/-- The bytes after Reset are those of the next draw (log entry 6). -/
theorem State.byte_hardReset (s : State) (sp : Space) (i : Nat) :
    s.hardReset.byte sp i = Config.powerOnByte (s.resets + 1) sp i :=
  State.byte_of_memory_nil (State.memory_hardReset s sp) i

end Sys2Proof.Machine
end

section
/-! Reset in any state (70_reset_and_hazards.md). -/

namespace Sys2Proof.Proofs.Reset

open Sys2Proof.Machine

/-- Settles O16: the step performs Reset with the rest of the list to come (`step_cons`), and a reset leaves no byte written,
so that every byte is the power-on byte of its draw (`State.byte_reset`, `State.byte_hardReset`). -/
theorem resetTransactionFromAnyState : Obligations.ResetTransactionFromAnyState := by
  refine ⟨State.byte_reset, fun s rest hp => ?_⟩
  have hstep : step s = .next (s.withPending rest).hardReset := step_cons hp
  exact ⟨(s.withPending rest).hardReset, hstep, rfl, State.byte_hardReset (s.withPending rest)⟩

end Sys2Proof.Proofs.Reset
end
